-- ==== Sys2Proof/Word.lean ====
section
/-! DEFINITION. The bit-vector types of the ports (10_state.md R27, R28). The block has no machine word of its own:
every value is read at the width its command selects. -/

namespace Sys2Proof

/-- One byte of a tuple port (R27: "8 bytes T[0] .. T[7]"). -/
abbrev Byte := BitVec 8

/-- The CMD port (30_encoding.md R60: "a 32-bit command word on the CMD port"). -/
abbrev CmdWord := BitVec 32

/-- The ports A and R (R27, R28: 64 bits). -/
abbrev Word64 := BitVec 64

/-- The ports P and RI (R27: 32 bits, two's complement). -/
abbrev Word32 := BitVec 32

end Sys2Proof
end

