-- ==== Sys2Proof/Syntax.lean ====
section
/-! DEFINITION. The commands as syntax: one constructor for each row of spec/opcode_table.json (30_encoding.md R63). -/

namespace Sys2Proof

/-- The data width W (00_scope.md R6: "exactly the values 8, 16, 32 and 64"). -/
inductive Width
  | w8
  | w16
  | w32
  | w64
  deriving DecidableEq, Repr

/-- W in bits. -/
def Width.bits : Width → Nat
  | .w8 => 8
  | .w16 => 16
  | .w32 => 32
  | .w64 => 64

/-- The tuple arity N (00_scope.md R7: "exactly the values 4 and 8"). -/
inductive Arity
  | n4
  | n8
  deriving DecidableEq, Repr

/-- N in bytes. -/
def Arity.count : Arity → Nat
  | .n4 => 4
  | .n8 => 8

/-- The width an arity packs into (R7: "a value of width 8N"). -/
def Arity.width : Arity → Width
  | .n4 => .w32
  | .n8 => .w64

/-- The arity a width selects for a tuple command (30_encoding.md R62); the widths 8 and 16 have none (R72). -/
def Width.arity? : Width → Option Arity
  | .w8 => none
  | .w16 => none
  | .w32 => some .n4
  | .w64 => some .n8

/-- The three commands that return a word with one bit changed (40_bit_field.md R102, R103, R104). -/
inductive BitChange
  | set
  | unset
  | toggle
  deriving DecidableEq, Repr

/-- One constructor for each row of the opcode table. The operands are values on ports, not fields of the word
(30_encoding.md R60, R69), so a constructor carries only what the word selects. -/
inductive Instr
  | bitat (w : Width)
  | setbitat (w : Width)
  | unsetbitat (w : Width)
  | togglebitat (w : Width)
  | asbool (w : Width)
  | ispoweroftwo (w : Width)
  | popcount (w : Width)
  | bitstring (w : Width)
  | frombitstring (w : Width)
  | hexstring (w : Width)
  | combinetowide (w : Width)
  | splitintobytes (w : Width)
  /-- The row "(reserved)": OP 0xC to 0xF with any width code (R71). -/
  | reserved (op : BitVec 4) (wc : BitVec 2)
  deriving DecidableEq, Repr

end Sys2Proof
end

