-- ==== Sys2Proof/WellFormed.lean ====
section
/-! DEFINITION. Which terms of Instr some 32-bit word spells (30_encoding.md R62, R71, R72). -/

namespace Sys2Proof

/-- A tuple command has an arity (R72: its widths 8 and 16 are reserved), and the reserved row has an OP of 0xC to
0xF (R71). Every scalar command has all four widths (R62). -/
def Instr.wellFormed : Instr → Bool
  | .bitat _ => true
  | .setbitat _ => true
  | .unsetbitat _ => true
  | .togglebitat _ => true
  | .asbool _ => true
  | .ispoweroftwo _ => true
  | .popcount _ => true
  | .bitstring _ => true
  | .frombitstring _ => true
  | .hexstring _ => true
  | .combinetowide w => w.arity?.isSome
  | .splitintobytes w => w.arity?.isSome
  | .reserved op _ => decide (12 ≤ op.toNat)

/-- Whether the row is one of the twelve operations (00_scope.md R3), that is, not the reserved row. -/
def Instr.isCommand : Instr → Bool
  | .bitat _ => true
  | .setbitat _ => true
  | .unsetbitat _ => true
  | .togglebitat _ => true
  | .asbool _ => true
  | .ispoweroftwo _ => true
  | .popcount _ => true
  | .bitstring _ => true
  | .frombitstring _ => true
  | .hexstring _ => true
  | .combinetowide _ => true
  | .splitintobytes _ => true
  | .reserved _ _ => false

end Sys2Proof
end

