-- ==== Sys2Proof/Decode.lean ====
section
/-! DEFINITION. The decoder of 30_encoding.md R75, total on every 32-bit word, and after it the encoder, both
written from R61 to R63. -/

namespace Sys2Proof

/-- Why a word is rejected: the name of the rule that makes it no row of the table. -/
inductive IllegalCause
  /-- CMD[31:6] is not 0 (R73). -/
  | reservedBits
  /-- A tuple OP with WC 00 or 01 (R72). -/
  | tupleWidth
  deriving DecidableEq, Repr

/-- What a word decodes to. A reserved OP (R71) is a row of the table, so it decodes to `Instr.reserved`. -/
inductive Decoded
  | instr (i : Instr)
  | illegal (why : IllegalCause)
  deriving DecidableEq, Repr

/-- CMD[3:0] (R61). -/
def opField (w : CmdWord) : BitVec 4 := w.extractLsb' 0 4

/-- CMD[5:4] (R61). -/
def wcField (w : CmdWord) : BitVec 2 := w.extractLsb' 4 2

/-- CMD[31:6] (R61). -/
def rsvField (w : CmdWord) : BitVec 26 := w.extractLsb' 6 26

/-- The width code of R62. -/
def widthOfCode (wc : BitVec 2) : Width :=
  match wc.toNat with
  | 0 => .w8
  | 1 => .w16
  | 2 => .w32
  | _ => .w64

/-- The row a legal-looking OP selects (R63); a tuple OP is legal only with WC[1] = 1 (R72). -/
def decodeOp (op : BitVec 4) (wc : BitVec 2) : Decoded :=
  match op.toNat with
  | 0 => .instr (.bitat (widthOfCode wc))
  | 1 => .instr (.setbitat (widthOfCode wc))
  | 2 => .instr (.unsetbitat (widthOfCode wc))
  | 3 => .instr (.togglebitat (widthOfCode wc))
  | 4 => .instr (.asbool (widthOfCode wc))
  | 5 => .instr (.ispoweroftwo (widthOfCode wc))
  | 6 => .instr (.popcount (widthOfCode wc))
  | 7 => .instr (.bitstring (widthOfCode wc))
  | 8 => .instr (.frombitstring (widthOfCode wc))
  | 9 => .instr (.hexstring (widthOfCode wc))
  | 10 => if wc.getLsbD 1 then .instr (.combinetowide (widthOfCode wc)) else .illegal .tupleWidth
  | 11 => if wc.getLsbD 1 then .instr (.splitintobytes (widthOfCode wc)) else .illegal .tupleWidth
  | _ => .instr (.reserved op wc)

/-- R75, in its order: the reserved bits are judged first. -/
def decode (w : CmdWord) : Decoded :=
  if rsvField w ≠ 0 then .illegal .reservedBits else decodeOp (opField w) (wcField w)

/-- R75 and R202: the words that are answered with IllegalCommand. -/
def isIllegalWord (w : CmdWord) : Bool :=
  match decode w with
  | .illegal _ => true
  | .instr i => !i.isCommand

/-- The instruction the decoder reads from a table word of `nbits` bits (one 32-bit word, R60). -/
def decodeTableWord (nbits w : Nat) : Option Instr :=
  if nbits ≤ 32 then
    match decode ((BitVec.ofNat nbits w).setWidth 32) with
    | .instr i => some i
    | .illegal _ => none
  else none

/-- The width code of R62, read from width to code. -/
def codeOfWidth : Width → BitVec 2
  | .w8 => 0b00#2
  | .w16 => 0b01#2
  | .w32 => 0b10#2
  | .w64 => 0b11#2

/-- The command word with RSV = 0 (R61: RSV, WC, OP from bit 31 down to bit 0). -/
def commandWord (op : BitVec 4) (wc : BitVec 2) : CmdWord := 0#26 ++ wc ++ op

/-- R76: "CMD = OP | (WC << 4) with WC from rule R62", the OP from the map of R63. -/
def encode : Instr → CmdWord
  | .bitat w => commandWord 0x0#4 (codeOfWidth w)
  | .setbitat w => commandWord 0x1#4 (codeOfWidth w)
  | .unsetbitat w => commandWord 0x2#4 (codeOfWidth w)
  | .togglebitat w => commandWord 0x3#4 (codeOfWidth w)
  | .asbool w => commandWord 0x4#4 (codeOfWidth w)
  | .ispoweroftwo w => commandWord 0x5#4 (codeOfWidth w)
  | .popcount w => commandWord 0x6#4 (codeOfWidth w)
  | .bitstring w => commandWord 0x7#4 (codeOfWidth w)
  | .frombitstring w => commandWord 0x8#4 (codeOfWidth w)
  | .hexstring w => commandWord 0x9#4 (codeOfWidth w)
  | .combinetowide w => commandWord 0xA#4 (codeOfWidth w)
  | .splitintobytes w => commandWord 0xB#4 (codeOfWidth w)
  | .reserved op wc => commandWord op wc

/-- A row of R63's match and mask table: a word is the row's when `CMD & mask == match`. -/
def rowMatches (row : CmdWord × CmdWord) (w : CmdWord) : Bool := decide (w &&& row.2 = row.1)

/-- The pair (match, mask) of an instruction's row, as R63's second table writes it; the reserved row's is
spec/opcode_table.json's. -/
def matchMask : Instr → CmdWord × CmdWord
  | .bitat _ => (0x00000000#32, 0xFFFFFFCF#32)
  | .setbitat _ => (0x00000001#32, 0xFFFFFFCF#32)
  | .unsetbitat _ => (0x00000002#32, 0xFFFFFFCF#32)
  | .togglebitat _ => (0x00000003#32, 0xFFFFFFCF#32)
  | .asbool _ => (0x00000004#32, 0xFFFFFFCF#32)
  | .ispoweroftwo _ => (0x00000005#32, 0xFFFFFFCF#32)
  | .popcount _ => (0x00000006#32, 0xFFFFFFCF#32)
  | .bitstring _ => (0x00000007#32, 0xFFFFFFCF#32)
  | .frombitstring _ => (0x00000008#32, 0xFFFFFFCF#32)
  | .hexstring _ => (0x00000009#32, 0xFFFFFFCF#32)
  | .combinetowide _ => (0x0000002A#32, 0xFFFFFFEF#32)
  | .splitintobytes _ => (0x0000002B#32, 0xFFFFFFEF#32)
  | .reserved _ _ => (0x0000000C#32, 0xFFFFFFCC#32)

end Sys2Proof
end

