-- ==== Sys2Proof/Config.lean ====
section
/-! DEFINITION. What the spec leaves to a parameter (00_scope.md R8), and the free values (40_bit_field.md R100). -/

namespace Sys2Proof.Config

/-- `Char` (R8, 92 D8): "a type with decidable equality that contains the 16 distinct output characters".
DESIGN CHOICE (entry 6): Lean's characters, whose codes agree with the ASCII codes of 42_string_codec.md R149. -/
abbrev Chr := Char

/-- `OOB_POS_POLICY` (R8, R100): what a bit command with pos outside [0, W) answers. -/
inductive OobPosPolicy
  /-- The default of R8: any value of the result type, STATUS OK. -/
  | draw
  /-- Model-only: "the model records a misuse fault. The hardware reports nothing". -/
  | fault
  deriving DecidableEq, Repr

/-- R8: "Default `draw`". -/
def defaultOobPosPolicy : OobPosPolicy := .draw

/-- `STR_CAP` (R8): "Default: unbounded"; none says unbounded. -/
def defaultStrCap : Option Nat := none

/-- The free value of bitat with pos outside [0, W) (R100: "draw b ∈ {0,1}"). It has no body, so nothing constrains
it; it is applied to the draw counter and to the operands, so that no claim can say it ignores either (entry 4). -/
opaque freeBit : (draw : Nat) → (w : Width) → (v : BitVec w.bits) → (pos : Int) → BitVec 1

/-- The free value of setbitat, unsetbitat and togglebitat with pos outside [0, W) (R100: "draw v' ∈ [0, 2^W)");
no body, as for `freeBit` (entry 4). -/
opaque freeWord : (draw : Nat) → BitChange → (w : Width) → (v : BitVec w.bits) → (pos : Int) → BitVec w.bits

end Sys2Proof.Config
end

