-- ==== Sys2Proof/Machine/State.lean ====
section
/-! DEFINITION. What crosses the block's ports (10_state.md R27, R28) and the machine's state. The block itself holds
no architectural state (R20 to R26); State holds the interface, the host's inputs and the trace (entry 1). -/

namespace Sys2Proof.Machine

open Sys2Proof.Config

/-- One command: the values of the input ports, taken whole (R27). -/
structure Command where
  /-- CMD, the command word. -/
  cmd : CmdWord
  /-- A, the value operand. -/
  a : Word64
  /-- P, the bit position. -/
  p : Word32
  /-- RI, the read index. -/
  ri : Word32
  /-- S, the string operand. -/
  s : List Chr
  /-- T, the tuple operand, T[0] = b0. -/
  t : Vector Byte 8
  deriving DecidableEq, Repr

/-- R28's Result, a tagged value: `word` and `bytes` carry values of exactly their width and arity. -/
inductive Result
  | word (w : Width) (v : BitVec w.bits)
  | bit (b : BitVec 1)
  | bool (b : Bool)
  | count (n : Nat)
  | str (s : List Chr)
  | bytes (n : Arity) (t : Vector Byte n.count)
  deriving DecidableEq, Repr

/-- R28's Response. STATUS = 3 has no constructor (93 I8). -/
inductive Response
  | ok (r : Result)
  | indexOutOfRange
  | illegalCommand
  deriving DecidableEq, Repr

/-- The two errors of 60_exceptions.md R200. -/
inductive ErrorCause
  | indexOutOfRange
  | illegalCommand
  deriving DecidableEq, Repr

/-- What the outside world does to the block, one at a time (R27; 70_reset_and_hazards.md R231). -/
inductive HostInput
  /-- The host issues a command on the ports. -/
  | command (c : Command)
  /-- The reset line goes active. -/
  | assertReset
  /-- The host issues a command on the ports, and the reset line goes active while it is in flight: "A command in
  flight across reset gets no response" (92_eei_decisions.md D25, 93 I5). -/
  | cutOff (c : Command)
  /-- The reset line goes inactive. -/
  | releaseReset
  deriving DecidableEq, Repr

/-- The model parameters of 00_scope.md R8 that are values; no step changes them. -/
structure Params where
  /-- OOB_POS_POLICY (R100). -/
  oobPosPolicy : OobPosPolicy
  /-- STR_CAP, none for unbounded (R67). -/
  strCap : Option Nat
  deriving DecidableEq, Repr

/-- The interface of the block and what the host has done and seen. -/
structure State where
  /-- The input ports as the last command taken left them (R27). -/
  ports : Command
  /-- The host's inputs the block has not taken yet, the next one first (R22, entry 1). -/
  pending : List HostInput
  /-- The reset line (R231). -/
  resetAsserted : Bool
  /-- The response on the response ports; none while they hold unspecified values (R28, R30). -/
  outputs : Option Response
  /-- Every response given, oldest first (95_test_vectors.md section 3). -/
  trace : List Response
  /-- The model parameters. -/
  params : Params
  /-- The MODEL's counter of free values drawn (R100, entry 4). -/
  draws : Nat
  deriving DecidableEq, Repr

/-- The reasons the machine can stop with a fault. -/
inductive Fault
  /-- Raised by bitat, setbitat, unsetbitat and togglebitat with pos outside [0, W), ONLY under the model-only policy
  OOB_POS_POLICY = fault (R100). Safe: the hardware goes on and reports nothing. -/
  | posMisuse
  deriving DecidableEq, Repr

/-- The reasons the model can refuse an instruction. -/
inductive Refusal
  /-- Raised by exec's arm for an instruction without a meaning; every instruction has one, so no arm raises it. Safe. -/
  | notModelled (mnemonic : String)
  deriving DecidableEq, Repr

/-- The input ports right after reset: the host drives them and the spec gives them no value.
DESIGN CHOICE (entry 2): zeros and the empty string. -/
def Command.atReset : Command :=
  { cmd := 0, a := 0, p := 0, ri := 0, s := [], t := Vector.replicate 8 0 }

/-- The machine right after reset (R30, R230, R231): nothing is held, and no response port holds a value. -/
def State.reset : State :=
  { ports := Command.atReset
    pending := []
    resetAsserted := false
    outputs := none
    trace := []
    params := { oobPosPolicy := defaultOobPosPolicy, strCap := defaultStrCap }
    draws := 0 }

end Sys2Proof.Machine
end

