-- ==== Sys2Proof/Machine/Operands.lean ====
section
/-! DEFINITION. Operand assembly (30_encoding.md R64 to R69): what a command reads from its ports. -/

namespace Sys2Proof.Machine

open Sys2Proof.Config

/-- R64: `v = A[W-1:0]`; A[63:W] is ignored. -/
def Command.value (c : Command) (w : Width) : BitVec w.bits := c.a.setWidth w.bits

/-- R65: `pos = signed_32(P)`, "not masked, reduced or clamped". -/
def Command.pos (c : Command) : Int := c.p.toInt

/-- R66: `ri = signed_32(RI)`. -/
def Command.readIndex (c : Command) : Int := c.ri.toInt

/-- R67: the string on port S. -/
def Command.string (c : Command) : List Chr := c.s

/-- An arity is at most the eight bytes of port T. -/
theorem arity_count_le (n : Arity) : n.count ≤ 8 := by cases n <;> decide

/-- R68: `(b0, ..., bN-1) = (T[0], ..., T[N-1])`; for N = 4, T[4..7] are ignored. -/
def Command.tuple (c : Command) (n : Arity) : Vector Byte n.count :=
  Vector.ofFn fun i => c.t[i.val]'(Nat.lt_of_lt_of_le i.isLt (arity_count_le n))

/-- R100's precondition `0 ≤ pos < W`. -/
abbrev PosInRange (w : Width) (pos : Int) : Prop := 0 ≤ pos ∧ pos < (w.bits : Int)

/-- An operand port as R69 names it: A[W-1:0], P, RI, S, T[0..N-1]. -/
inductive Operand
  | value (w : Width)
  | pos
  | readIndex
  | string
  | tuple (n : Arity)
  deriving DecidableEq, Repr

end Sys2Proof.Machine

namespace Sys2Proof

open Sys2Proof.Machine

/-- R69's table, in the operand order of R76. An illegal word reads nothing (R202). -/
def Instr.reads : Instr → List Operand
  | .bitat w => [.value w, .pos]
  | .setbitat w => [.value w, .pos]
  | .unsetbitat w => [.value w, .pos]
  | .togglebitat w => [.value w, .pos]
  | .asbool w => [.value w]
  | .ispoweroftwo w => [.value w]
  | .popcount w => [.value w]
  | .bitstring w => [.value w]
  | .frombitstring _ => [.string, .readIndex]
  | .hexstring w => [.value w]
  | .combinetowide w => (w.arity?.map Operand.tuple).toList
  | .splitintobytes w => (w.arity?.map fun n => Operand.value n.width).toList
  | .reserved _ _ => []

end Sys2Proof

namespace Sys2Proof.Machine

open Sys2Proof.Config

/-- Two commands carry the same value on an operand port. -/
def Operand.same : Operand → Command → Command → Prop
  | .value w, c, d => c.value w = d.value w
  | .pos, c, d => c.p = d.p
  | .readIndex, c, d => c.ri = d.ri
  | .string, c, d => c.s = d.s
  | .tuple n, c, d => c.tuple n = d.tuple n

/-- Whether a decoded command is a bit command with pos outside [0, W), the "undefined-on-misuse" case of R100. -/
def Command.misusesPosOf (c : Command) : Instr → Bool
  | .bitat w => decide (¬ PosInRange w c.pos)
  | .setbitat w => decide (¬ PosInRange w c.pos)
  | .unsetbitat w => decide (¬ PosInRange w c.pos)
  | .togglebitat w => decide (¬ PosInRange w c.pos)
  | .asbool _ => false
  | .ispoweroftwo _ => false
  | .popcount _ => false
  | .bitstring _ => false
  | .frombitstring _ => false
  | .hexstring _ => false
  | .combinetowide _ => false
  | .splitintobytes _ => false
  | .reserved _ _ => false

/-- Whether the command, as its word decodes, misuses pos (R65, R100). -/
def Command.misusesPos (c : Command) : Bool :=
  match decode c.cmd with
  | .instr i => c.misusesPosOf i
  | .illegal _ => false

/-- R67: `0 ≤ len(s) ≤ STR_CAP`. -/
def Command.fits (c : Command) (strCap : Option Nat) : Bool :=
  match strCap with
  | none => true
  | some cap => decide (c.s.length ≤ cap)

end Sys2Proof.Machine
end

