-- ==== Sys2Proof/Machine/Ops.lean ====
section
/-! DEFINITION. The shared operations: taking an input, responding, raising an error, and the bit operators the
sub-units are built from. -/

namespace Sys2Proof.Machine

open Sys2Proof.Config

/-- One reply on the response ports, "produced once per command" (10_state.md R28); nothing else changes (R20, R48). -/
def State.respond (s : State) (r : Response) : State :=
  { s with outputs := some r, trace := s.trace ++ [r] }

/-- `respond ok(r)` (00_scope.md R14). -/
def State.respondOk (s : State) (r : Result) : State := s.respond (.ok r)

/-- The response an error is (R200). -/
def ErrorCause.response : ErrorCause → Response
  | .indexOutOfRange => .indexOutOfRange
  | .illegalCommand => .illegalCommand

/-- The ONE way an error is taken (60_exceptions.md R206, R207): the response carries the STATUS and no result; no
state is saved, no mode changes, control goes nowhere. There is no return from it (R208). -/
def State.raise (s : State) (e : ErrorCause) : State := s.respond e.response

/-- One free value has been drawn (40_bit_field.md R100, entry 4). -/
def State.drew (s : State) : State := { s with draws := s.draws + 1 }

/-- The block takes the command from the host: its values stand on the input ports (R27). -/
def State.take (s : State) (c : Command) (rest : List HostInput) : State :=
  { s with ports := c, pending := rest }

/-- The reset line goes active: the response ports hold unspecified values from here to the first response (R30,
R231), and responses already given stay given. There is no state to clear (R230). -/
def State.assertReset (s : State) (rest : List HostInput) : State :=
  { s with pending := rest, resetAsserted := true, outputs := none }

/-- The reset line goes active with the command in flight: it has taken the ports and gets no response, and the host
must issue it again (R231, 92 D25, entry 9). -/
def State.cutOff (s : State) (c : Command) (rest : List HostInput) : State := (s.take c rest).assertReset rest

/-- The reset line goes inactive; nothing has to be initialised (R232). -/
def State.releaseReset (s : State) (rest : List HostInput) : State :=
  { s with pending := rest, resetAsserted := false }

/-- The host issues a command, behind those it has issued before (R22); a string longer than STR_CAP cannot be put on
port S (30_encoding.md R67). -/
def State.issue (s : State) (c : Command) : Option State :=
  if c.fits s.params.strCap then some { s with pending := s.pending ++ [.command c] } else none

/-- The host asserts reset now, ahead of every input it has not seen taken: the command in flight is cut off, and the
commands behind it come under reset (R231, 92 D25, entry 9). -/
def State.cutByReset (s : State) : State :=
  match s.pending with
  | [] => { s with pending := [.assertReset] }
  | .command c :: rest => { s with pending := .cutOff c :: rest }
  | .assertReset :: rest => { s with pending := .assertReset :: rest }
  | .cutOff c :: rest => { s with pending := .cutOff c :: rest }
  | .releaseReset :: rest => { s with pending := .assertReset :: .releaseReset :: rest }

/-- `(v >> pos) & 1` (R101). -/
def bitAt {n : Nat} (v : BitVec n) (pos : Nat) : BitVec 1 := ((v >>> pos) &&& 1#n).setWidth 1

/-- `v | (1 << pos)` (R102). -/
def setBitAt {n : Nat} (v : BitVec n) (pos : Nat) : BitVec n := v ||| (1#n <<< pos)

/-- `v & ~(1 << pos)`, the complement inside W bits (R103). -/
def unsetBitAt {n : Nat} (v : BitVec n) (pos : Nat) : BitVec n := v &&& ~~~(1#n <<< pos)

/-- `v XOR (1 << pos)` (R104). -/
def toggleBitAt {n : Nat} (v : BitVec n) (pos : Nat) : BitVec n := v ^^^ (1#n <<< pos)

/-- The command with pos in [0, W) answers `inRange pos`; outside, R100: under `draw` STATUS is OK with the free
value, under `fault` the model records the misuse. -/
def bitCommand (w : Width) (inRange : Nat → Result) (free : Result) (s : State) :
    Host.Outcome State Fault Refusal :=
  if PosInRange w s.ports.pos then .next (s.respondOk (inRange s.ports.pos.toNat))
  else
    match s.params.oobPosPolicy with
    | .draw => .next (s.drew.respondOk free)
    | .fault => .fault .posMisuse

/-- The three commands that return the value with one bit changed (R102 to R104). -/
def changeBit (op : BitChange) {n : Nat} (v : BitVec n) (pos : Nat) : BitVec n :=
  match op with
  | .set => setBitAt v pos
  | .unset => unsetBitAt v pos
  | .toggle => toggleBitAt v pos

/-- The shared body of setbitat, unsetbitat and togglebitat. -/
def changeCommand (op : BitChange) (w : Width) (s : State) : Host.Outcome State Fault Refusal :=
  bitCommand w (fun pos => .word w (changeBit op (s.ports.value w) pos))
    (.word w (freeWord s.draws op w (s.ports.value w) s.ports.pos)) s

end Sys2Proof.Machine
end

