-- ==== Sys2Proof/Machine/BitField.lean ====
section
/-! DEFINITION. bit_field_extract_set_toggle (40_bit_field.md). -/

namespace Sys2Proof.Machine

open Sys2Proof.Config

/-- R101: `ok(bit((v >> pos) & 1))`. -/
def execBitat (w : Width) (s : State) : Host.Outcome State Fault Refusal :=
  bitCommand w (fun pos => .bit (bitAt (s.ports.value w) pos))
    (.bit (freeBit s.draws w (s.ports.value w) s.ports.pos)) s

/-- R102: `ok(word(W, v | (1 << pos)))`. -/
def execSetbitat (w : Width) (s : State) : Host.Outcome State Fault Refusal := changeCommand .set w s

/-- R103: `ok(word(W, v & ~(1 << pos)))`. -/
def execUnsetbitat (w : Width) (s : State) : Host.Outcome State Fault Refusal := changeCommand .unset w s

/-- R104: `ok(word(W, v XOR (1 << pos)))`. -/
def execTogglebitat (w : Width) (s : State) : Host.Outcome State Fault Refusal := changeCommand .toggle w s

/-- R105's test: `v > 0`, unsigned. -/
def asBool {n : Nat} (v : BitVec n) : Bool := decide (0#n < v)

/-- R105: `ok(bool(v > 0))`. -/
def execAsbool (w : Width) (s : State) : Host.Outcome State Fault Refusal :=
  .next (s.respondOk (.bool (asBool (s.ports.value w))))

/-- R106's test: `v != 0 and (v & (v - 1)) == 0`, the subtraction on W bits. -/
def isPowerOfTwo {n : Nat} (v : BitVec n) : Bool := decide (v ≠ 0#n) && decide (v &&& (v - 1#n) = 0#n)

/-- R106. -/
def execIspoweroftwo (w : Width) (s : State) : Host.Outcome State Fault Refusal :=
  .next (s.respondOk (.bool (isPowerOfTwo (s.ports.value w))))

end Sys2Proof.Machine
end

