-- ==== Sys2Proof/Machine/PopCount.lean ====
section
/-! DEFINITION. popcount_unit (41_popcount.md). -/

namespace Sys2Proof.Machine

/-- R130: the count of i in 0 .. W-1 such that `(v >> i) & 1 == 1`. -/
def popCount {n : Nat} (v : BitVec n) : Nat := (List.range n).countP fun i => bitAt v i == 1#1

/-- R130: `ok(count(n))`; total on every value, one variant per width (R131). -/
def execPopcount (w : Width) (s : State) : Host.Outcome State Fault Refusal :=
  .next (s.respondOk (.count (popCount (s.ports.value w))))

/-- A byte repeated through n bits (R132: "the byte 0x55 repeated W/8 times"). -/
def repeatByte (n : Nat) (b : Byte) : BitVec n :=
  (List.range (n / 8)).foldl (fun m i => m ||| (b.setWidth n <<< (8 * i))) 0#n

/-- R132's fold, informative: the meaning of popcount is R130, and no result depends on this (R131, entry 18). -/
def popCountSwar {n : Nat} (v : BitVec n) : BitVec n :=
  let m2 := repeatByte n 0x33#8
  let x := v - ((v >>> 1) &&& repeatByte n 0x55#8)
  let x := (x &&& m2) + ((x >>> 2) &&& m2)
  let x := (x + (x >>> 4)) &&& repeatByte n 0x0F#8
  (x * repeatByte n 0x01#8) >>> (n - 8)

/-- R131 and R132: the variant of a width, the 8-bit one by delegation to 32 bits on zext_32(v). -/
def popCountVariant : (w : Width) → BitVec w.bits → Nat
  | .w8, v => (popCountSwar (v.setWidth 32)).toNat
  | .w16, v => (popCountSwar v).toNat
  | .w32, v => (popCountSwar v).toNat
  | .w64, v => (popCountSwar v).toNat

end Sys2Proof.Machine
end

