-- ==== Sys2Proof/Machine/StringCodec.lean ====
section
/-! DEFINITION. binary_string_encoder_decoder and hex_string_encoder (42_string_codec.md). -/

namespace Sys2Proof.Machine

open Sys2Proof.Config

/-- The 16 output characters (R149), in the order of R154's digits. -/
def digits : List Chr :=
  ['0', '1', '2', '3', '4', '5', '6', '7', '8', '9', 'A', 'B', 'C', 'D', 'E', 'F']

/-- `digit(d) = "0123456789ABCDEF"[d]` for d in 0 .. 15 (R154). -/
def digit (d : Nat) : Chr := digits.getD d '0'

/-- R150: characters for the bit positions W-1 down to 0, index k for bit W-1-k. -/
def bitString {n : Nat} (v : BitVec n) : List Chr :=
  (List.range n).map fun k => if bitAt v (n - 1 - k) = 1#1 then '1' else '0'

/-- R150: `ok(str(s))`. -/
def execBitstring (w : Width) (s : State) : Host.Outcome State Fault Refusal :=
  .next (s.respondOk (.str (bitString (s.ports.value w))))

/-- R151's loop: the character at ri + k sets bit W-1-k when it is '1'; any other leaves it 0 (R152). -/
def fromBitString (n : Nat) (str : List Chr) (ri : Nat) : BitVec n :=
  (List.range n).foldl (fun v k => if str[ri + k]? = some '1' then v ||| (1#n <<< (n - 1 - k)) else v) 0#n

/-- R151: IndexOutOfRange when `ri < 0 or ri + W > len(s)`, on unbounded integers; else `ok(word(W, v))`. -/
def execFrombitstring (w : Width) (s : State) : Host.Outcome State Fault Refusal :=
  if s.ports.readIndex < 0 ∨ s.ports.readIndex + w.bits > s.ports.string.length then
    .next (s.raise .indexOutOfRange)
  else .next (s.respondOk (.word w (fromBitString w.bits s.ports.string s.ports.readIndex.toNat)))

/-- R154's while loop, the most significant digit ending up first; the fuel bounds the number of digits. -/
def hexLoop : (fuel : Nat) → (x : Nat) → List Chr → List Chr
  | 0, _, s => s
  | fuel + 1, x, s => if x = 0 then s else hexLoop fuel (x / 16) (digit (x % 16) :: s)

/-- R154: "0" for zero; else the digits without leading zeros (a W-bit value has at most W/4, and W is fuel enough). -/
def hexString {n : Nat} (v : BitVec n) : List Chr :=
  if v = 0#n then ['0'] else hexLoop n v.toNat []

/-- R154: `ok(str(s))`. -/
def execHexstring (w : Width) (s : State) : Host.Outcome State Fault Refusal :=
  .next (s.respondOk (.str (hexString (s.ports.value w))))

end Sys2Proof.Machine
end

