-- ==== Sys2Proof/Machine/TupleCodec.lean ====
section
/-! DEFINITION. byte_tuple_packer_unpacker (43_tuple_codec.md) and the reserved row (30_encoding.md R71). -/

namespace Sys2Proof.Machine

/-- R180's loop: `v <- v | (zext_W(b_i) << (W - 8 - 8*i))`, so b0 is the most significant byte. -/
def combineToWide (n : Arity) (t : Vector Byte n.count) : BitVec n.width.bits :=
  (List.finRange n.count).foldl
    (fun (v : BitVec n.width.bits) (i : Fin n.count) =>
      v ||| (t[i.val].setWidth n.width.bits <<< (n.width.bits - 8 - 8 * i.val)))
    0#n.width.bits

/-- R180: `ok(word(W, v))`; the widths 8 and 16 are reserved and answer IllegalCommand (R72, entry 12). -/
def execCombinetowide (w : Width) (s : State) : Host.Outcome State Fault Refusal :=
  match w.arity? with
  | some n => .next (s.respondOk (.word n.width (combineToWide n (s.ports.tuple n))))
  | none => .next (s.raise .illegalCommand)

/-- R181: `b_i <- (v >> (W - 8 - 8*i)) & 0xFF`. -/
def splitIntoBytes (n : Arity) (v : BitVec n.width.bits) : Vector Byte n.count :=
  Vector.ofFn fun i =>
    ((v >>> (n.width.bits - 8 - 8 * i.val)) &&& BitVec.ofNat n.width.bits 0xFF).setWidth 8

/-- R181: `ok(bytes(N, (b0, ..., bN-1)))`; the widths 8 and 16 answer IllegalCommand (R72, entry 12). -/
def execSplitintobytes (w : Width) (s : State) : Host.Outcome State Fault Refusal :=
  match w.arity? with
  | some n => .next (s.respondOk (.bytes n (splitIntoBytes n (s.ports.value n.width))))
  | none => .next (s.raise .illegalCommand)

/-- R71: a reserved OP "is answered with STATUS = IllegalCommand and no result". -/
def execReserved (_op : BitVec 4) (_wc : BitVec 2) (s : State) : Host.Outcome State Fault Refusal :=
  .next (s.raise .illegalCommand)

end Sys2Proof.Machine
end

