-- ==== Sys2Proof/Machine/Dispatch.lean ====
section
/-! DEFINITION. One arm for each row of spec/opcode_table.json. -/

namespace Sys2Proof.Machine

/-- The meaning of an instruction on the command that stands on the input ports (10_state.md R26's Exec). -/
def exec (i : Instr) (s : State) : Host.Outcome State Fault Refusal :=
  match i with
  | .bitat w => Sys2Proof.Machine.execBitat w s
  | .setbitat w => Sys2Proof.Machine.execSetbitat w s
  | .unsetbitat w => Sys2Proof.Machine.execUnsetbitat w s
  | .togglebitat w => Sys2Proof.Machine.execTogglebitat w s
  | .asbool w => Sys2Proof.Machine.execAsbool w s
  | .ispoweroftwo w => Sys2Proof.Machine.execIspoweroftwo w s
  | .popcount w => Sys2Proof.Machine.execPopcount w s
  | .bitstring w => Sys2Proof.Machine.execBitstring w s
  | .frombitstring w => Sys2Proof.Machine.execFrombitstring w s
  | .hexstring w => Sys2Proof.Machine.execHexstring w s
  | .combinetowide w => Sys2Proof.Machine.execCombinetowide w s
  | .splitintobytes w => Sys2Proof.Machine.execSplitintobytes w s
  | .reserved op wc => Sys2Proof.Machine.execReserved op wc s

end Sys2Proof.Machine
end

