-- ==== Sys2Proof/Machine/Step.lean ====
section
/-! DEFINITION. One step: the block takes the host's next input. A command is one atomic step (20_memory.md R48). -/

namespace Sys2Proof.Machine

/-- The block serves the command on its ports: it runs the instruction the word decodes to, or answers IllegalCommand
(30_encoding.md R75; 60_exceptions.md R202, R205). -/
def serve (s : State) : Host.Outcome State Fault Refusal :=
  match decode s.ports.cmd with
  | .instr i => exec i s
  | .illegal _ => .next (s.raise .illegalCommand)

/-- One step. With no input waiting the block is idle and nothing changes (entry 3). A command taken while reset is
asserted, or in flight when it is, gets no response (70_reset_and_hazards.md R231, 92_eei_decisions.md D25). -/
def step (s : State) : Host.Outcome State Fault Refusal :=
  match s.pending with
  | [] => .next s
  | .assertReset :: rest => .next (s.assertReset rest)
  | .cutOff c :: rest => .next (s.cutOff c rest)
  | .releaseReset :: rest => .next (s.releaseReset rest)
  | .command c :: rest => if s.resetAsserted then .next (s.take c rest) else serve (s.take c rest)

/-- The word presented as the host's next command, with the operand ports at the values they hold and the reset line
released; a program comes to run by the host issuing commands (entry 13). -/
def State.withFetchWord (s : State) (nbits w : Nat) : State :=
  { s with
    pending := .command { s.ports with cmd := (BitVec.ofNat nbits w).setWidth 32 } :: s.pending
    resetAsserted := false }

end Sys2Proof.Machine
end

