-- ==== Sys2Proof/Machine/Flags.lean ====
section
/-! DEFINITION. The block has no flags (10_state.md R23); what stands in their place is the STATUS field and the
response ports (R28; 30_encoding.md R70; 60_exceptions.md R200). -/

namespace Sys2Proof.Machine

open Sys2Proof.Config

/-- R200: 0 OK, 1 IndexOutOfRange, 2 IllegalCommand; 3 is never produced. -/
def Response.status : Response → BitVec 2
  | .ok _ => 0#2
  | .indexOutOfRange => 1#2
  | .illegalCommand => 2#2

/-- R70, port R: the scalar result zero-extended; none where the opcode does not select R. -/
def Result.rPort : Result → Option Word64
  | .word _ v => some (v.setWidth 64)
  | .bit b => some (b.setWidth 64)
  | .bool b => some (if b then 1#64 else 0#64)
  | .count n => some (BitVec.ofNat 64 n)
  | .str _ => none
  | .bytes _ _ => none

/-- R70, port OS. -/
def Result.osPort : Result → Option (List Chr)
  | .word _ _ => none
  | .bit _ => none
  | .bool _ => none
  | .count _ => none
  | .str s => some s
  | .bytes _ _ => none

/-- R70, port OT[i]: byte b_i for i < N; OT[N..7] and every byte of an unselected OT are unspecified. -/
def Result.otPort (r : Result) (i : Nat) : Option Byte :=
  match r with
  | .word _ _ => none
  | .bit _ => none
  | .bool _ => none
  | .count _ => none
  | .str _ => none
  | .bytes _ t => t[i]?

/-- The result of a response, if it has one (R206: an error has none). -/
def Response.result? : Response → Option Result
  | .ok r => some r
  | .indexOutOfRange => none
  | .illegalCommand => none

/-- Port R of a response; unspecified on an error (R28). -/
def Response.rPort (r : Response) : Option Word64 := r.result?.bind Result.rPort

/-- Port OS of a response. -/
def Response.osPort (r : Response) : Option (List Chr) := r.result?.bind Result.osPort

/-- Port OT[i] of a response. -/
def Response.otPort (r : Response) (i : Nat) : Option Byte := r.result?.bind (Result.otPort · i)

/-- The port that holds a result. -/
inductive ResultPort
  | r
  | os
  | ot
  deriving DecidableEq, Repr

end Sys2Proof.Machine

namespace Sys2Proof

open Sys2Proof.Machine

/-- R70's last column; an illegal word selects none. -/
def Instr.resultPort : Instr → Option ResultPort
  | .bitat _ => some .r
  | .setbitat _ => some .r
  | .unsetbitat _ => some .r
  | .togglebitat _ => some .r
  | .asbool _ => some .r
  | .ispoweroftwo _ => some .r
  | .popcount _ => some .r
  | .bitstring _ => some .os
  | .frombitstring _ => some .r
  | .hexstring _ => some .os
  | .combinetowide _ => some .r
  | .splitintobytes _ => some .ot
  | .reserved _ _ => none

end Sys2Proof
end

