-- ==== Sys2Proof/Machine/Assembler.lean ====
section
/-! DEFINITION. The assembler of 30_encoding.md R76 to R80: lines, operands, their refusals, and the text form.
It is a tool of the host; the block never sees it. -/

namespace Sys2Proof.Machine

open Sys2Proof.Config

/-- An operand as a line writes it (R76, R78, R79). -/
inductive AsmOperand
  /-- A number literal. -/
  | num (n : Int)
  /-- A string literal. -/
  | str (s : List Chr)
  /-- A flat tuple of byte literals. -/
  | tuple (bs : List Int)
  /-- The source's nested form, two groups (R78). -/
  | nested (xs ys : List Int)
  /-- `%k`, the result of the k-th earlier command, numbered from 1 (R79). -/
  | ref (k : Nat)
  deriving DecidableEq, Repr

/-- One command line. -/
inductive AsmLine
  /-- A mnemonic with its width, and its operands (R76). -/
  | op (i : Instr) (args : List AsmOperand)
  /-- `.word`, a raw command word (R80). -/
  | word (w : Nat)
  deriving DecidableEq, Repr

/-- Why the assembler, or the host that substitutes `%k`, refuses a line: "An assembler refusal is a refusal of the
text" (R76). No instruction of the block raises one. -/
inductive AsmError
  /-- A value literal outside [0, 2^W). -/
  | valueRange
  /-- A pos or readIndex outside the 32-bit signed range. -/
  | signedRange
  /-- A tuple of the wrong arity. -/
  | arity
  /-- A byte literal outside [0, 256). -/
  | byteRange
  /-- A tuple mnemonic with .w8 or .w16. -/
  | tupleWidth
  /-- A `.word` literal that is not 32 bits. -/
  | wordRange
  /-- An operand of the wrong kind, or the wrong number of operands. -/
  | operands
  /-- A `%k` that names no earlier command, or a response whose STATUS is not OK (R79). -/
  | badRef
  /-- Text that is no line of R76 to R80. -/
  | text
  deriving DecidableEq, Repr

/-- The response `%k` stands for, when its STATUS is OK (R79: else "an error of the listing"). -/
def refResult (rs : List Response) (k : Nat) : Except AsmError Result :=
  if k = 0 then .error .badRef
  else
    match rs[k - 1]? with
    | some (.ok r) => .ok r
    | some .indexOutOfRange => .error .badRef
    | some .illegalCommand => .error .badRef
    | none => .error .badRef

/-- The scalar a `%k` puts on a port: what R carried (entry 16). -/
def refScalar (rs : List Response) (k : Nat) : Except AsmError Word64 := do
  match (← refResult rs k).rPort with
  | some v => .ok v
  | none => .error .operands

/-- The value for port A. A literal of 2^W or more is refused (R76); a substituted result is put on the port as it is
(R64 ignores its upper bits; entry 16). -/
def asmValue (rs : List Response) (w : Width) : AsmOperand → Except AsmError Word64
  | .num n => if 0 ≤ n ∧ n < 2 ^ w.bits then .ok (BitVec.ofInt 64 n) else .error .valueRange
  | .ref k => refScalar rs k
  | .str _ => .error .operands
  | .tuple _ => .error .operands
  | .nested _ _ => .error .operands

/-- A value for port P or RI, refused outside the 32-bit signed range (R76). -/
def signed32 (n : Int) : Except AsmError Word32 :=
  if -(2 ^ 31) ≤ n ∧ n < 2 ^ 31 then .ok (BitVec.ofInt 32 n) else .error .signedRange

/-- The pos or readIndex operand. -/
def asmSigned (rs : List Response) : AsmOperand → Except AsmError Word32
  | .num n => signed32 n
  | .ref k => do signed32 (← refScalar rs k).toNat
  | .str _ => .error .operands
  | .tuple _ => .error .operands
  | .nested _ _ => .error .operands

/-- The string operand. -/
def asmString (rs : List Response) : AsmOperand → Except AsmError (List Chr)
  | .str s => .ok s
  | .ref k => do
    match (← refResult rs k).osPort with
    | some s => .ok s
    | none => .error .operands
  | .num _ => .error .operands
  | .tuple _ => .error .operands
  | .nested _ _ => .error .operands

/-- Byte literals, each refused at 256 or more (R76). -/
def asmBytes : List Int → Except AsmError (List Byte)
  | [] => .ok []
  | b :: bs =>
    if 0 ≤ b ∧ b < 256 then do .ok (BitVec.ofInt 8 b :: (← asmBytes bs)) else .error .byteRange

/-- The tuple operand: N bytes, flat, or for N = 8 two nested groups of four (R78). -/
def asmTuple (rs : List Response) (n : Arity) : AsmOperand → Except AsmError (List Byte)
  | .tuple bs => if bs.length = n.count then asmBytes bs else .error .arity
  | .nested xs ys =>
    if n = .n8 ∧ xs.length = 4 ∧ ys.length = 4 then asmBytes (xs ++ ys) else .error .arity
  | .ref k => do
    match ← refResult rs k with
    | .bytes m t => if m = n then .ok t.toList else .error .arity
    | .word _ _ => .error .operands
    | .bit _ => .error .operands
    | .bool _ => .error .operands
    | .count _ => .error .operands
    | .str _ => .error .operands
  | .num _ => .error .operands
  | .str _ => .error .operands

/-- Port T with its first bytes replaced; the others stay as they are (R27, entry 17). -/
def Command.withTuple (c : Command) (bs : List Byte) : Command :=
  { c with t := Vector.ofFn fun i : Fin 8 => bs.getD i.val c.t[i] }

/-- Puts one operand on its port. -/
def asmOperand (rs : List Response) (c : Command) : Operand → AsmOperand → Except AsmError Command
  | .value w, arg => do .ok { c with a := ← asmValue rs w arg }
  | .pos, arg => do .ok { c with p := ← asmSigned rs arg }
  | .readIndex, arg => do .ok { c with ri := ← asmSigned rs arg }
  | .string, arg => do .ok { c with s := ← asmString rs arg }
  | .tuple n, arg => do .ok (c.withTuple (← asmTuple rs n arg))

/-- Puts the operands on the ports the opcode reads, in R76's order. -/
def asmOperands (rs : List Response) : Command → List Operand → List AsmOperand → Except AsmError Command
  | c, [], [] => .ok c
  | c, o :: os, arg :: args => do asmOperands rs (← asmOperand rs c o arg) os args
  | _, [], _ :: _ => .error .operands
  | _, _ :: _, [] => .error .operands

/-- R77: `frombitstring.wW "string"` with no readIndex expands to readIndex 0. -/
def expandArgs (i : Instr) (args : List AsmOperand) : List AsmOperand :=
  match i, args with
  | .frombitstring _, [s] => [s, .num 0]
  | _, args => args

/-- The command a line is, given the earlier responses of its listing and the values the input ports hold; a port the
line does not write keeps its value (R27, R80, entry 17). -/
def assemble (rs : List Response) (base : Command) : AsmLine → Except AsmError Command
  | .word w => if w < 2 ^ 32 then .ok { base with cmd := BitVec.ofNat 32 w } else .error .wordRange
  | .op i args =>
    if !i.isCommand then .error .text
    else if !i.wellFormed then .error .tupleWidth
    else asmOperands rs { base with cmd := encode i } i.reads (expandArgs i args)

/-- A token of a line of text (entry 15). -/
inductive Token
  | word (cs : List Char)
  | str (cs : List Char)
  | comma
  | lparen
  | rparen
  deriving DecidableEq, Repr

/-- Where the scan of a line stands; the characters are kept last first. -/
inductive ScanMode
  | gap
  | word (rev : List Char)
  | quoted (rev : List Char)
  | comment
  deriving DecidableEq, Repr

/-- The tokens seen, last first, with the open word closed. -/
def closeWord (m : ScanMode) (toks : List Token) : List Token :=
  match m with
  | .word rev => .word rev.reverse :: toks
  | .gap => toks
  | .quoted _ => toks
  | .comment => toks

/-- One character outside a string and a comment. DESIGN CHOICE (entry 15), where R76 and R80 are silent: a blank, a tab
and a carriage return separate words, and a comma, a parenthesis, a quote or a semicolon ends a word without one. -/
def scanPlain (m : ScanMode) (toks : List Token) (c : Char) : ScanMode × List Token :=
  if c = ';' then (.comment, closeWord m toks)
  else if c = '"' then (.quoted [], closeWord m toks)
  else if c = ',' then (.gap, .comma :: closeWord m toks)
  else if c = '(' then (.gap, .lparen :: closeWord m toks)
  else if c = ')' then (.gap, .rparen :: closeWord m toks)
  else if c = ' ' ∨ c = '\t' ∨ c = '\r' then (.gap, closeWord m toks)
  else
    match m with
    | .word rev => (.word (c :: rev), toks)
    | .gap => (.word [c], toks)
    | .quoted _ => (m, toks)
    | .comment => (m, toks)

/-- One character of a line: `;` starts a comment, double quotes hold a string (R80). DESIGN CHOICE (entry 15): a string
has no escapes, and `;` inside it is a character of it. -/
def scanChar (st : ScanMode × List Token) (c : Char) : ScanMode × List Token :=
  match st.1 with
  | .comment => st
  | .quoted rev => if c = '"' then (.gap, .str rev.reverse :: st.2) else (.quoted (c :: rev), st.2)
  | .gap => scanPlain st.1 st.2 c
  | .word _ => scanPlain st.1 st.2 c

/-- The tokens of a line; none for a string left open (DESIGN CHOICE, entry 15). -/
def scanLine (cs : List Char) : Option (List Token) :=
  let st := cs.foldl scanChar (.gap, [])
  match st.1 with
  | .quoted _ => none
  | .gap => some (closeWord st.1 st.2).reverse
  | .word _ => some (closeWord st.1 st.2).reverse
  | .comment => some (closeWord st.1 st.2).reverse

/-- The value of a digit character below the base, of either case (DESIGN CHOICE, entry 15). -/
def digitValue (base : Nat) (c : Char) : Option Nat :=
  let n := c.toNat
  let d :=
    if 48 ≤ n ∧ n ≤ 57 then some (n - 48)
    else if 65 ≤ n ∧ n ≤ 70 then some (n - 55)
    else if 97 ≤ n ∧ n ≤ 102 then some (n - 87)
    else none
  d.filter (· < base)

/-- A digit string, most significant digit first. -/
def parseDigits (base : Nat) (cs : List Char) : Option Nat :=
  if cs = [] then none
  else cs.foldl (fun acc c => do let a ← acc; let d ← digitValue base c; pure (a * base + d)) (some 0)

/-- A number literal: decimal, hexadecimal with 0x, binary with 0b (R80). -/
def parseNat (cs : List Char) : Option Nat :=
  match cs with
  | '0' :: 'x' :: ds => parseDigits 16 ds
  | '0' :: 'b' :: ds => parseDigits 2 ds
  | ds => parseDigits 10 ds

/-- A number literal with an optional minus sign (DESIGN CHOICE, entry 15). -/
def parseInt (cs : List Char) : Option Int :=
  match cs with
  | '-' :: ds => (parseNat ds).map fun n => -(n : Int)
  | ds => (parseNat ds).map fun n => (n : Int)

/-- A number or a `%k` reference. -/
def parseWord (cs : List Char) : Option AsmOperand :=
  match cs with
  | '%' :: ds => (parseDigits 10 ds).map .ref
  | ds => (parseInt ds).map .num

/-- The byte literals of a group, after its opening parenthesis, and the tokens behind its closing one; an empty group is
refused (DESIGN CHOICE, entry 15). -/
def parseGroup : List Token → Option (List Int × List Token)
  | .word cs :: .rparen :: rest => (parseInt cs).map fun n => ([n], rest)
  | .word cs :: .comma :: rest => do
    let n ← parseInt cs
    let (ns, rest') ← parseGroup rest
    pure (n :: ns, rest')
  | _ => none

/-- One operand and the tokens behind it. -/
def parseOperand : List Token → Option (AsmOperand × List Token)
  | .word cs :: rest => (parseWord cs).map fun o => (o, rest)
  | .str s :: rest => some (.str s, rest)
  | .lparen :: .lparen :: rest =>
    match parseGroup rest with
    | some (xs, .comma :: .lparen :: rest') =>
      match parseGroup rest' with
      | some (ys, .rparen :: rest'') => some (.nested xs ys, rest'')
      | _ => none
    | _ => none
  | .lparen :: rest => (parseGroup rest).map fun g => (.tuple g.1, g.2)
  | _ => none

/-- The operands of a line: no mnemonic takes more than two (R76). -/
def parseOperands (toks : List Token) : Option (List AsmOperand) :=
  match parseOperand toks with
  | some (x, []) => some [x]
  | some (x, .comma :: rest) =>
    match parseOperand rest with
    | some (y, []) => some [x, y]
    | _ => none
  | _ => none

/-- The mnemonics of R63. -/
def mnemonicTable : List (List Char × (Width → Instr)) :=
  [ ("bitat".toList, .bitat), ("setbitat".toList, .setbitat), ("unsetbitat".toList, .unsetbitat),
    ("togglebitat".toList, .togglebitat), ("asbool".toList, .asbool), ("ispoweroftwo".toList, .ispoweroftwo),
    ("popcount".toList, .popcount), ("bitstring".toList, .bitstring), ("frombitstring".toList, .frombitstring),
    ("hexstring".toList, .hexstring), ("combinetowide".toList, .combinetowide),
    ("splitintobytes".toList, .splitintobytes) ]

/-- The width suffix `.w<W>` (R76). -/
def parseWidth (cs : List Char) : Option Width :=
  if cs = ".w8".toList then some .w8
  else if cs = ".w16".toList then some .w16
  else if cs = ".w32".toList then some .w32
  else if cs = ".w64".toList then some .w64
  else none

/-- `<mnemonic>.w<W>` (R76). -/
def parseMnemonic (cs : List Char) : Option Instr := do
  let w ← parseWidth (cs.dropWhile (· ≠ '.'))
  let row ← mnemonicTable.find? fun row => row.1 = cs.takeWhile (· ≠ '.')
  pure (row.2 w)

/-- One line of text; a line with nothing but a comment or blanks is no command (DESIGN CHOICE, entry 15). -/
def parseLine (cs : List Char) : Except AsmError (Option AsmLine) :=
  match scanLine cs with
  | none => .error .text
  | some [] => .ok none
  | some [.word d, .word n] =>
    if d = ".word".toList then
      match parseNat n with
      | some w => .ok (some (.word w))
      | none => .error .text
    else
      match parseMnemonic d, parseOperands [.word n] with
      | some i, some args => .ok (some (.op i args))
      | _, _ => .error .text
  | some (.word m :: rest) =>
    match parseMnemonic m, parseOperands rest with
    | some i, some args => .ok (some (.op i args))
    | _, _ => .error .text
  | some _ => .error .text

/-- The lines of a text, each up to a line feed (DESIGN CHOICE, entry 15). -/
def splitLines : List Char → List (List Char)
  | [] => [[]]
  | c :: cs =>
    match splitLines cs with
    | [] => [[c]]
    | l :: ls => if c = '\n' then [] :: l :: ls else (c :: l) :: ls

/-- The command lines of a listing. -/
def parseListing (cs : List Char) : Except AsmError (List AsmLine) := do
  let ls ← (splitLines cs).mapM parseLine
  pure (ls.filterMap id)

end Sys2Proof.Machine
end

