-- ==== Sys2Proof/Machine/Listing.lean ====
section
/-! DEFINITION. A host that runs a listing (30_encoding.md R79; 70_reset_and_hazards.md R234): it assembles each line
with the results of the earlier lines in place of `%k`, issues the command, and reads the response. -/

namespace Sys2Proof.Machine

/-- Why a listing stops. -/
inductive ListingError
  /-- The line is refused before it is issued. -/
  | line (e : AsmError)
  /-- The string is longer than STR_CAP (R67). -/
  | stringCap
  /-- The machine answered no response: a fault, a refusal, or reset asserted. -/
  | noResponse
  deriving DecidableEq, Repr

/-- The host issues one command, the next the block takes, and reads its response. -/
def issueNow (s : State) (c : Command) : Except ListingError (State × Response) :=
  if c.fits s.params.strCap then
    match step { s with pending := .command c :: s.pending } with
    | .next t =>
      match t.outputs with
      | some r => if s.resetAsserted then .error .noResponse else .ok (t, r)
      | none => .error .noResponse
    | .fault _ => .error .noResponse
    | .refused _ => .error .noResponse
  else .error .stringCap

/-- Runs the lines after the responses `rs` of the lines before them; the end state and every response. -/
def runLines : List AsmLine → List Response → State → Except ListingError (State × List Response)
  | [], rs, s => .ok (s, rs)
  | l :: ls, rs, s =>
    match assemble rs s.ports l with
    | .error e => .error (.line e)
    | .ok c =>
      match issueNow s c with
      | .error e => .error e
      | .ok (t, r) => runLines ls (rs ++ [r]) t

/-- Runs a text listing from a state. -/
def runListing (text : List Char) (s : State) : Except ListingError (State × List Response) :=
  match parseListing text with
  | .error e => .error (.line e)
  | .ok ls => runLines ls [] s

end Sys2Proof.Machine
end

