-- ==== Sys2Proof/Safety.lean ====
section
/-! DEFINITION. The terms claims are stated in: what a response may look like, the invariant of the machine, and which
commands draw no free value. -/

namespace Sys2Proof.Machine

/-- What 10_state.md R28 and 42_string_codec.md R149 leave of a result whose width is not known: a count is at most 64,
the largest W (R28's bound, at most W, is ResultKindAndPort's), and a string has 1 to 64 characters, each one of the 16. The widths of words and tuples hold by their types. -/
def Result.bounded : Result → Bool
  | .word _ _ => true
  | .bit _ => true
  | .bool _ => true
  | .count n => decide (n ≤ 64)
  | .str s => decide (1 ≤ s.length ∧ s.length ≤ 64) && s.all fun c => digits.contains c
  | .bytes _ _ => true

/-- Every result of the response is bounded. -/
def Response.bounded (r : Response) : Bool := (r.result?.map Result.bounded).getD true

/-- A host input carries a string its port can carry (30_encoding.md R67). -/
def HostInput.fits (strCap : Option Nat) : HostInput → Bool
  | .command c => c.fits strCap
  | .assertReset => true
  | .cutOff c => c.fits strCap
  | .releaseReset => true

/-- The invariant every step keeps: every response given is bounded; the response ports hold nothing, or the last
response given (entry 8); they hold nothing while reset is asserted (70_reset_and_hazards.md R231, entries 8 and 9);
and every input waiting fits its ports (entry 7). -/
structure State.Inv (s : State) : Prop where
  bounded : ∀ r ∈ s.trace, r.bounded = true
  outputs : s.outputs = none ∨ s.outputs = s.trace.getLast?
  silent : s.resetAsserted = true → s.outputs = none
  fits : ∀ x ∈ s.pending, HostInput.fits s.params.strCap x = true

/-- The commands among the inputs that are taken while reset is not asserted, in order; these get a response. -/
def served : (resetAsserted : Bool) → List HostInput → List Command
  | _, [] => []
  | _, .assertReset :: rest => served true rest
  | _, .cutOff _ :: rest => served true rest
  | _, .releaseReset :: rest => served false rest
  | true, .command _ :: rest => served true rest
  | false, .command c :: rest => c :: served false rest

/-- The responses R100 allows an instruction whose pos is outside [0, W): OK, with any bit or any W-bit word. -/
def mayDraw : Instr → Response → Prop
  | .bitat _, r => ∃ b, r = .ok (.bit b)
  | .setbitat w, r => ∃ v, r = .ok (.word w v)
  | .unsetbitat w, r => ∃ v, r = .ok (.word w v)
  | .togglebitat w, r => ∃ v, r = .ok (.word w v)
  | .asbool _, _ => False
  | .ispoweroftwo _, _ => False
  | .popcount _, _ => False
  | .bitstring _, _ => False
  | .frombitstring _, _ => False
  | .hexstring _, _ => False
  | .combinetowide _, _ => False
  | .splitintobytes _, _ => False
  | .reserved _ _, _ => False

/-- R64's `v = A mod 2^W`, as a natural number. -/
def Command.valueNat (c : Command) (w : Width) : Nat := c.a.toNat % 2 ^ w.bits

/-- The command with a value put on port A, as the host does when it passes a result on (R70: R = zext_64(v)). -/
def Command.withA (c : Command) {n : Nat} (v : BitVec n) : Command := { c with a := v.setWidth 64 }

/-- The response an instruction gives to the operands of a command, from the state right after reset. -/
def answer (i : Instr) (c : Command) : Option Response :=
  match exec i { State.reset with ports := c } with
  | .next t => t.outputs
  | .fault _ => none
  | .refused _ => none

/-- The response of a command served from the state right after reset; its free values aside, R26 makes it the
response from every state. -/
def respondsFromReset (c : Command) : Option Response :=
  match step { State.reset with pending := [.command c] } with
  | .next t => t.outputs
  | .fault _ => none
  | .refused _ => none

end Sys2Proof.Machine
end

