-- ==== Sys2Proof/Certificates/Slice0/Obligations.lean ====
section
/-! DEFINITION. The statements for the provers. Where a rule is marked in the spec as the spec's own inference
("derived: from ..."), the statement is derived and cites the rules it rests on. -/

open Sys2Proof Sys2Proof.Machine Sys2Proof.Config

/-! ## Reset and the step -/

/-- R30: no response port holds a value after reset, and the parameters have R8's defaults. -/
def Obligations.ResetHoldsNothing : Prop :=
  State.reset.outputs = none ∧ State.reset.trace = [] ∧
  State.reset.params.oobPosPolicy = .draw ∧ State.reset.params.strCap = none

/-- A step on a command serves exactly what its word decodes to, on the ports the command carries; an illegal word is
answered IllegalCommand; under reset the command is dropped; with nothing waiting nothing changes (entries 3, 9). -/
def Obligations.StepRunsDecoded : Prop :=
  ∀ s : State,
    (∀ c rest, s.pending = .command c :: rest →
      (s.resetAsserted = false →
        (∀ i, decode c.cmd = .instr i → step s = exec i { s with ports := c, pending := rest }) ∧
        (∀ why, decode c.cmd = .illegal why →
          step s = .next (({ s with ports := c, pending := rest } : State).respond .illegalCommand))) ∧
      (s.resetAsserted = true → step s = .next { s with ports := c, pending := rest })) ∧
    (s.pending = [] → step s = .next s)

/-- R231 and R230: reset takes every value off the response ports, keeps the responses already given, and changes
neither the input ports nor the parameters nor the draw counter; a command issued while it is asserted, or in flight
when it is (92_eei_decisions.md D25), gets no response. That the response ports then hold no value is the model's choice
(entry 8), and so is reset as a level with an assert and a release (entry 9). -/
def Obligations.ResetSilences : Prop :=
  ∀ (s : State) (rest : List HostInput),
    (s.pending = .assertReset :: rest →
      step s = .next { s with pending := rest, resetAsserted := true, outputs := none }) ∧
    (s.pending = .releaseReset :: rest →
      step s = .next { s with pending := rest, resetAsserted := false }) ∧
    (∀ c, s.pending = .command c :: rest → s.resetAsserted = true →
      step s = .next { s with ports := c, pending := rest }) ∧
    (∀ c, s.pending = .cutOff c :: rest →
      step s = .next { s with ports := c, pending := rest, resetAsserted := true, outputs := none })

/-- R231 and 92_eei_decisions.md D25: where the host asserts reset while commands it has issued wait, none of them gets
a response, the one in flight included (the form of the input is the model's, entry 9). -/
def Obligations.CutCommandsGetNoResponse : Prop :=
  ∀ (s : State) (cs : List Command), s.pending = cs.map .command →
    ∃ t, Host.Core.run Sys2Proof.core (max 1 cs.length) s.cutByReset = .next t ∧ t.pending = [] ∧
      t.resetAsserted = true ∧ t.outputs = none ∧ t.trace = s.trace ∧ t.params = s.params ∧ t.draws = s.draws

/-! ## The result of each instruction, for every state -/

/-- R101: the encoding, the bit of an in-range pos, and R100 outside: the unconstrained free value with STATUS OK
under `draw`, the model-only misuse fault under `fault` (the model's forms, entries 4 and 5). -/
def Obligations.BitatAnswers : Prop :=
  ∀ (w : Width) (s : State),
    decode (0x00000000#32 ||| ((codeOfWidth w).setWidth 32 <<< 4)) = .instr (.bitat w) ∧
    (0 ≤ s.ports.p.toInt ∧ s.ports.p.toInt < w.bits →
      exec (.bitat w) s =
        .next (s.respond (.ok (.bit (BitVec.ofNat 1 (s.ports.valueNat w >>> s.ports.p.toInt.toNat % 2)))))) ∧
    (¬ (0 ≤ s.ports.p.toInt ∧ s.ports.p.toInt < w.bits) → s.params.oobPosPolicy = .draw →
      exec (.bitat w) s =
        .next (s.drew.respond (.ok (.bit (freeBit s.draws w (s.ports.value w) s.ports.p.toInt))))) ∧
    (¬ (0 ≤ s.ports.p.toInt ∧ s.ports.p.toInt < w.bits) → s.params.oobPosPolicy = .fault →
      exec (.bitat w) s = .fault .posMisuse)

/-- R102, and R100 outside the range: the free value under `draw`, the model-only misuse fault under `fault` (the
model's forms, entries 4 and 5). -/
def Obligations.SetbitatAnswers : Prop :=
  ∀ (w : Width) (s : State),
    decode (0x00000001#32 ||| ((codeOfWidth w).setWidth 32 <<< 4)) = .instr (.setbitat w) ∧
    (0 ≤ s.ports.p.toInt ∧ s.ports.p.toInt < w.bits →
      exec (.setbitat w) s =
        .next (s.respond (.ok (.word w (BitVec.ofNat _ (s.ports.valueNat w ||| 2 ^ s.ports.p.toInt.toNat)))))) ∧
    (¬ (0 ≤ s.ports.p.toInt ∧ s.ports.p.toInt < w.bits) → s.params.oobPosPolicy = .draw →
      exec (.setbitat w) s =
        .next (s.drew.respond (.ok (.word w (freeWord s.draws .set w (s.ports.value w) s.ports.p.toInt))))) ∧
    (¬ (0 ≤ s.ports.p.toInt ∧ s.ports.p.toInt < w.bits) → s.params.oobPosPolicy = .fault →
      exec (.setbitat w) s = .fault .posMisuse)

/-- R103, the complement as R11 writes it, (2^W - 1) - x; and R100 outside the range: the free value under `draw`, the
model-only misuse fault under `fault` (the model's forms, entries 4 and 5). -/
def Obligations.UnsetbitatAnswers : Prop :=
  ∀ (w : Width) (s : State),
    decode (0x00000002#32 ||| ((codeOfWidth w).setWidth 32 <<< 4)) = .instr (.unsetbitat w) ∧
    (0 ≤ s.ports.p.toInt ∧ s.ports.p.toInt < w.bits →
      exec (.unsetbitat w) s =
        .next (s.respond (.ok (.word w
          (BitVec.ofNat _ (s.ports.valueNat w &&& (2 ^ w.bits - 1 - 2 ^ s.ports.p.toInt.toNat))))))) ∧
    (¬ (0 ≤ s.ports.p.toInt ∧ s.ports.p.toInt < w.bits) → s.params.oobPosPolicy = .draw →
      exec (.unsetbitat w) s =
        .next (s.drew.respond (.ok (.word w (freeWord s.draws .unset w (s.ports.value w) s.ports.p.toInt))))) ∧
    (¬ (0 ≤ s.ports.p.toInt ∧ s.ports.p.toInt < w.bits) → s.params.oobPosPolicy = .fault →
      exec (.unsetbitat w) s = .fault .posMisuse)

/-- R104, and R100 outside the range: the free value under `draw`, the model-only misuse fault under `fault` (the
model's forms, entries 4 and 5). -/
def Obligations.TogglebitatAnswers : Prop :=
  ∀ (w : Width) (s : State),
    decode (0x00000003#32 ||| ((codeOfWidth w).setWidth 32 <<< 4)) = .instr (.togglebitat w) ∧
    (0 ≤ s.ports.p.toInt ∧ s.ports.p.toInt < w.bits →
      exec (.togglebitat w) s =
        .next (s.respond (.ok (.word w (BitVec.ofNat _ (s.ports.valueNat w ^^^ 2 ^ s.ports.p.toInt.toNat)))))) ∧
    (¬ (0 ≤ s.ports.p.toInt ∧ s.ports.p.toInt < w.bits) → s.params.oobPosPolicy = .draw →
      exec (.togglebitat w) s =
        .next (s.drew.respond (.ok (.word w (freeWord s.draws .toggle w (s.ports.value w) s.ports.p.toInt))))) ∧
    (¬ (0 ≤ s.ports.p.toInt ∧ s.ports.p.toInt < w.bits) → s.params.oobPosPolicy = .fault →
      exec (.togglebitat w) s = .fault .posMisuse)

/-- R105. -/
def Obligations.AsboolAnswers : Prop :=
  ∀ (w : Width) (s : State),
    decode (0x00000004#32 ||| ((codeOfWidth w).setWidth 32 <<< 4)) = .instr (.asbool w) ∧
    exec (.asbool w) s = .next (s.respond (.ok (.bool (decide (0 < s.ports.valueNat w)))))

/-- R106: "The result is true exactly for v ∈ {2^0, 2^1, …, 2^(W−1)}". -/
def Obligations.IspoweroftwoAnswers : Prop :=
  ∀ (w : Width) (s : State),
    decode (0x00000005#32 ||| ((codeOfWidth w).setWidth 32 <<< 4)) = .instr (.ispoweroftwo w) ∧
    ∃ b : Bool, exec (.ispoweroftwo w) s = .next (s.respond (.ok (.bool b))) ∧
      (b = true ↔ ∃ k < w.bits, s.ports.valueNat w = 2 ^ k) ∧
      (b = true ↔ s.ports.valueNat w ≠ 0 ∧ s.ports.valueNat w &&& (s.ports.valueNat w - 1) = 0)

/-- R130. -/
def Obligations.PopcountAnswers : Prop :=
  ∀ (w : Width) (s : State),
    decode (0x00000006#32 ||| ((codeOfWidth w).setWidth 32 <<< 4)) = .instr (.popcount w) ∧
    exec (.popcount w) s =
      .next (s.respond (.ok (.count
        (((List.range w.bits).filter fun i => s.ports.valueNat w >>> i % 2 = 1).length))))

/-- R150: exactly W characters, index k for bit W-1-k. -/
def Obligations.BitstringAnswers : Prop :=
  ∀ (w : Width) (s : State),
    decode (0x00000007#32 ||| ((codeOfWidth w).setWidth 32 <<< 4)) = .instr (.bitstring w) ∧
    ∃ str, exec (.bitstring w) s = .next (s.respond (.ok (.str str))) ∧ str.length = w.bits ∧
      ∀ k < w.bits,
        str[k]? = some (if s.ports.valueNat w >>> (w.bits - 1 - k) % 2 = 1 then '1' else '0')

/-- R151 (the clause ri < 0 is the spec's decision D11): IndexOutOfRange, or the word whose bit W-1-k is set exactly
when the character at ri + k is '1'. -/
def Obligations.FrombitstringAnswers : Prop :=
  ∀ (w : Width) (s : State),
    decode (0x00000008#32 ||| ((codeOfWidth w).setWidth 32 <<< 4)) = .instr (.frombitstring w) ∧
    (s.ports.ri.toInt < 0 ∨ s.ports.ri.toInt + w.bits > s.ports.s.length →
      exec (.frombitstring w) s = .next (s.respond .indexOutOfRange)) ∧
    (¬ (s.ports.ri.toInt < 0 ∨ s.ports.ri.toInt + w.bits > s.ports.s.length) →
      ∃ v : BitVec w.bits, exec (.frombitstring w) s = .next (s.respond (.ok (.word w v))) ∧
        ∀ k < w.bits, v.getLsbD (w.bits - 1 - k) = decide (s.ports.s[s.ports.ri.toInt.toNat + k]? = some '1'))

/-- R154 (that zero is "0" is the spec's decision D12): base-16 digits that spell v, uppercase, without leading
zeros, at most W/4 of them. -/
def Obligations.HexstringAnswers : Prop :=
  ∀ (w : Width) (s : State),
    decode (0x00000009#32 ||| ((codeOfWidth w).setWidth 32 <<< 4)) = .instr (.hexstring w) ∧
    ∃ ds : List Nat,
      exec (.hexstring w) s =
        .next (s.respond (.ok (.str (ds.map fun d =>
          ['0', '1', '2', '3', '4', '5', '6', '7', '8', '9', 'A', 'B', 'C', 'D', 'E', 'F'].getD d '?')))) ∧
      (∀ d ∈ ds, d < 16) ∧ ds.foldl (fun x d => 16 * x + d) 0 = s.ports.valueNat w ∧
      (s.ports.valueNat w = 0 → ds = [0]) ∧ (s.ports.valueNat w ≠ 0 → ds.head? ≠ some 0) ∧
      1 ≤ ds.length ∧ ds.length ≤ w.bits / 4

/-- R180, both arities as the rule writes them; the words with WC 00 and 01 are illegal (R72). That exec answers
IllegalCommand to the terms of width 8 and 16, which no word decodes to, is the model's choice (entry 12). -/
def Obligations.CombinetowideAnswers : Prop :=
  decode 0x0000002A#32 = .instr (.combinetowide .w32) ∧ decode 0x0000003A#32 = .instr (.combinetowide .w64) ∧
  decode 0x0000000A#32 = .illegal .tupleWidth ∧ decode 0x0000001A#32 = .illegal .tupleWidth ∧
  ∀ s : State,
    exec (.combinetowide .w32) s =
      .next (s.respond (.ok (.word .w32 (BitVec.ofNat 32
        (s.ports.t[0].toNat <<< 24 ||| s.ports.t[1].toNat <<< 16 ||| s.ports.t[2].toNat <<< 8 |||
          s.ports.t[3].toNat))))) ∧
    exec (.combinetowide .w64) s =
      .next (s.respond (.ok (.word .w64 (BitVec.ofNat 64
        (s.ports.t[0].toNat <<< 56 ||| s.ports.t[1].toNat <<< 48 ||| s.ports.t[2].toNat <<< 40 |||
          s.ports.t[3].toNat <<< 32 ||| s.ports.t[4].toNat <<< 24 ||| s.ports.t[5].toNat <<< 16 |||
          s.ports.t[6].toNat <<< 8 ||| s.ports.t[7].toNat))))) ∧
    exec (.combinetowide .w8) s = .next (s.respond .illegalCommand) ∧
    exec (.combinetowide .w16) s = .next (s.respond .illegalCommand)

/-- R181: byte i is (v >> (W - 8 - 8i)) mod 256, so b0 is the most significant; the words with WC 00 and 01
are illegal (R72). That exec answers IllegalCommand to the terms of width 8 and 16, which no word decodes to, is the
model's choice (entry 12). -/
def Obligations.SplitintobytesAnswers : Prop :=
  decode 0x0000002B#32 = .instr (.splitintobytes .w32) ∧ decode 0x0000003B#32 = .instr (.splitintobytes .w64) ∧
  decode 0x0000000B#32 = .illegal .tupleWidth ∧ decode 0x0000001B#32 = .illegal .tupleWidth ∧
  ∀ s : State,
    (∀ n : Arity, ∃ t : Vector Byte n.count,
      exec (.splitintobytes n.width) s = .next (s.respond (.ok (.bytes n t))) ∧
      ∀ (i : Nat) (hi : i < n.count),
        t[i].toNat = s.ports.valueNat n.width >>> (n.width.bits - 8 - 8 * i) % 256) ∧
    exec (.splitintobytes .w8) s = .next (s.respond .illegalCommand) ∧
    exec (.splitintobytes .w16) s = .next (s.respond .illegalCommand)

/-- R71: OP 0xC to 0xF, with any width code. -/
def Obligations.ReservedAnswersIllegal : Prop :=
  ∀ (op : BitVec 4) (wc : BitVec 2), 12 ≤ op.toNat →
    decode (BitVec.ofNat 32 (op.toNat + 16 * wc.toNat)) = .instr (.reserved op wc) ∧
    ∀ s : State, exec (.reserved op wc) s = .next (s.respond .illegalCommand)

/-! ## Errors and statuses -/

/-- R203: the four bit commands with pos outside [0, W), and only they, misuse pos; the STATUS is OK and the result is
one R100 allows. -/
def Obligations.MisuseIsNotAnError : Prop :=
  ∀ (i : Instr) (s : State),
    (s.ports.misusesPosOf i = true ↔
      ∃ w, (i = .bitat w ∨ i = .setbitat w ∨ i = .unsetbitat w ∨ i = .togglebitat w) ∧
        (s.ports.p.toInt < 0 ∨ (w.bits : Int) ≤ s.ports.p.toInt)) ∧
    (s.ports.misusesPosOf i = true → s.params.oobPosPolicy = .draw →
      ∃ t r, exec i s = .next t ∧ t.outputs = some r ∧ mayDraw i r ∧ r.status = 0#2 ∧ t.trace = s.trace ++ [r])

/-- R152 and R204: a character other than '1' is read as bit 0, replacing it by '0' changes no response, and no
character is an error. -/
def Obligations.FrombitstringLenient : Prop :=
  ∀ (w : Width) (s : State),
    ∃ r, exec (.frombitstring w) s = .next (s.respond r) ∧
      exec (.frombitstring w)
          { s with ports := { s.ports with s := s.ports.s.map fun c => if c = '1' then '1' else '0' } } =
        .next (({ s with ports := { s.ports with s := s.ports.s.map fun c => if c = '1' then '1' else '0' } } :
          State).respond r) ∧
      (0 ≤ s.ports.ri.toInt ∧ s.ports.ri.toInt + w.bits ≤ s.ports.s.length →
        r.status = 0#2 ∧ ∃ v : BitVec w.bits, r = .ok (.word w v) ∧
          ∀ k < w.bits, s.ports.s[s.ports.ri.toInt.toNat + k]? ≠ some '1' → v.getLsbD (w.bits - 1 - k) = false)

/-- R201: frombitstring, and no other command, and exactly when `ri < 0 or ri + W > len(s)`. -/
def Obligations.IndexOutOfRangeExactly : Prop :=
  ∀ (i : Instr) (s t : State), exec i s = .next t →
    (t.outputs = some .indexOutOfRange ↔
      ∃ w, i = .frombitstring w ∧
        (s.ports.ri.toInt < 0 ∨ s.ports.ri.toInt + w.bits > s.ports.s.length))

/-- R202 (with R71, R72, R73): IllegalCommand exactly for the words the rule lists, whatever the operand ports hold. -/
def Obligations.IllegalCommandExactly : Prop :=
  ∀ (s : State) (c : Command) (rest : List HostInput),
    s.pending = .command c :: rest → s.resetAsserted = false →
    ((c.cmd.toNat / 64 ≠ 0 ∨ 12 ≤ c.cmd.toNat % 16 ∨
        ((c.cmd.toNat % 16 = 10 ∨ c.cmd.toNat % 16 = 11) ∧ c.cmd.toNat / 16 % 4 < 2)) →
      step s = .next (({ s with ports := c, pending := rest } : State).respond .illegalCommand)) ∧
    (¬ (c.cmd.toNat / 64 ≠ 0 ∨ 12 ≤ c.cmd.toNat % 16 ∨
        ((c.cmd.toNat % 16 = 10 ∨ c.cmd.toNat % 16 = 11) ∧ c.cmd.toNat / 16 % 4 < 2)) →
      ∀ t, step s = .next t → t.outputs ≠ some .illegalCommand)

/-- R206: a command answered with an error gets no result on any port, and serving it changes nothing but the
interface. That an unspecified port is held as no value is the model's choice (entry 8), as are the interface fields of
the next state (entry 1). -/
def Obligations.ErrorsHaveNoEffect : Prop :=
  ∀ (s t : State) (c : Command) (rest : List HostInput) (r : Response),
    s.pending = .command c :: rest → s.resetAsserted = false →
    step s = .next t → t.outputs = some r → r.status ≠ 0#2 →
    t = { s with ports := c, pending := rest, outputs := some r, trace := s.trace ++ [r] } ∧
    r.rPort = none ∧ r.osPort = none ∧ ∀ k, r.otPort k = none

/-- R200: the codes of the three responses; 3 is never produced. -/
def Obligations.StatusCodes : Prop :=
  (∀ r : Result, (Response.ok r).status = 0#2) ∧ Response.indexOutOfRange.status = 1#2 ∧
  Response.illegalCommand.status = 2#2 ∧ ∀ r : Response, r.status ≠ 3#2

/-- R208 and R26: the command behind an error is served exactly as if the error's command had not been issued. A
command that draws nothing gets the same response and leaves the same state, the error's response in the trace apart;
where R100 draws, the two runs give each a response R100 allows, and need not agree (entry 4). -/
def Obligations.CommandAfterError : Prop :=
  ∀ (s t : State) (c d : Command) (rest : List HostInput) (e : Response),
    s.pending = .command c :: .command d :: rest → s.resetAsserted = false →
    step s = .next t → t.outputs = some e → e.status ≠ 0#2 →
    (d.misusesPos = false →
      ∃ r,
        step { s with pending := .command d :: rest } =
          .next { s with ports := d, pending := rest, outputs := some r, trace := s.trace ++ [r] } ∧
        step t = .next { s with ports := d, pending := rest, outputs := some r, trace := s.trace ++ [e, r] }) ∧
    (d.misusesPos = true → s.params.oobPosPolicy = .draw →
      ∃ (i : Instr) (q r : Response) (u v : State),
        decode d.cmd = .instr i ∧ mayDraw i q ∧ mayDraw i r ∧
        step { s with pending := .command d :: rest } = .next u ∧ u.outputs = some q ∧ u.trace = s.trace ++ [q] ∧
        step t = .next v ∧ v.outputs = some r ∧ v.trace = s.trace ++ [e, r] ∧
        u.pending = rest ∧ v.pending = rest)

/-! ## Whole-machine rules -/

/-- The frame of every instruction: ports, waiting inputs, the reset line and the parameters are unchanged, exactly
one response is added, and the draw counter moves only by the draw of a misused pos. -/
def Obligations.ExecFrame : Prop :=
  ∀ (i : Instr) (s t : State), exec i s = .next t →
    t.ports = s.ports ∧ t.pending = s.pending ∧ t.resetAsserted = s.resetAsserted ∧ t.params = s.params ∧
    t.draws = s.draws + (if s.ports.misusesPosOf i then 1 else 0) ∧
    ∃ r, t.outputs = some r ∧ t.trace = s.trace ++ [r]

/-- No step is refused; a step stops only on a misused pos under the model-only policy `fault`; under `draw` every
step has a next state. -/
def Obligations.StepNeverStops : Prop :=
  ∀ s : State,
    (s.params.oobPosPolicy = .draw → ∃ t, step s = .next t) ∧
    (∀ r, step s ≠ .refused r) ∧
    (∀ f, step s = .fault f →
      f = .posMisuse ∧ s.params.oobPosPolicy = .fault ∧
        ∃ c rest, s.pending = .command c :: rest ∧ s.resetAsserted = false ∧ c.misusesPos = true)

/-- R26: the response of a command that draws nothing is the one the command gets from the state right after reset,
whatever came before; where R100 draws, it is one R100 allows; and serving a command changes nothing but the interface
(and the model's draw counter, entry 4). -/
def Obligations.ResponseOfTheCommandAlone : Prop :=
  ∀ (s : State) (c : Command) (rest : List HostInput),
    s.pending = .command c :: rest → s.resetAsserted = false →
    (c.misusesPos = false →
      ∃ r, respondsFromReset c = some r ∧
        step s = .next { s with ports := c, pending := rest, outputs := some r, trace := s.trace ++ [r] }) ∧
    (c.misusesPos = true → s.params.oobPosPolicy = .draw →
      ∃ i r, decode c.cmd = .instr i ∧ mayDraw i r ∧
        step s = .next { s with ports := c, pending := rest, outputs := some r, trace := s.trace ++ [r],
                                draws := s.draws + 1 })

/-- Two commands in either order get the same responses (20_memory.md section 4). -/
def Obligations.OrderDoesNotMatter : Prop :=
  ∀ (s : State) (c d : Command) (rest : List HostInput),
    s.resetAsserted = false → c.misusesPos = false → d.misusesPos = false →
    ∃ (r q : Response) (t t' : State),
      Host.Core.run Sys2Proof.core 2 { s with pending := .command c :: .command d :: rest } = .next t ∧
      Host.Core.run Sys2Proof.core 2 { s with pending := .command d :: .command c :: rest } = .next t' ∧
      t.trace = s.trace ++ [r, q] ∧ t'.trace = s.trace ++ [q, r] ∧
      t.pending = rest ∧ t'.pending = rest ∧ t.params = t'.params ∧ t.draws = t'.draws

/-- R235: under `draw`, as many steps as inputs wait leave none waiting, and every command taken outside reset has got
exactly one response, in order: the one R26 gives it, or OK for a misused pos. That a command takes one step is the
model's choice (entry 10); a command under reset, or cut off by it, gets none (R231, entry 9). -/
def Obligations.EveryCommandAnswered : Prop :=
  ∀ s : State, s.params.oobPosPolicy = .draw →
    ∃ (t : State) (rs : List Response),
      Host.Core.run Sys2Proof.core s.pending.length s = .next t ∧ t.pending = [] ∧ t.trace = s.trace ++ rs ∧
      List.Forall₂
        (fun c r => (c.misusesPos = false → respondsFromReset c = some r) ∧ (c.misusesPos = true → r.status = 0#2))
        (served s.resetAsserted s.pending) rs

/-- R69: a port the opcode does not read cannot change the response, nor whether pos is misused. Where R100 draws, both
responses are ones R100 allows, and need not agree (entry 4); under the model-only policy both are the misuse fault
(entry 5). -/
def Obligations.UnreadPortsIgnored : Prop :=
  ∀ (i : Instr) (s : State) (c d : Command), (∀ o ∈ i.reads, o.same c d) →
    d.misusesPosOf i = c.misusesPosOf i ∧
    (c.misusesPosOf i = false →
      ∃ r, exec i { s with ports := c } = .next (({ s with ports := c } : State).respond r) ∧
        exec i { s with ports := d } = .next (({ s with ports := d } : State).respond r)) ∧
    (c.misusesPosOf i = true → s.params.oobPosPolicy = .draw →
      ∃ q r, mayDraw i q ∧ mayDraw i r ∧
        exec i { s with ports := c } = .next (({ s with ports := c } : State).drew.respond q) ∧
        exec i { s with ports := d } = .next (({ s with ports := d } : State).drew.respond r)) ∧
    (c.misusesPosOf i = true → s.params.oobPosPolicy = .fault →
      exec i { s with ports := c } = .fault .posMisuse ∧ exec i { s with ports := d } = .fault .posMisuse)

/-- R70: the result kind of each opcode and the value its port carries. R70 calls OT[N..7] unspecified; that they hold no
value is the model's choice (entry 8). -/
def Obligations.ResultKindAndPort : Prop :=
  ∀ (i : Instr) (s t : State) (r : Result), exec i s = .next t → t.outputs = some (.ok r) →
    match i with
    | .bitat _ => ∃ b : BitVec 1, r = .bit b ∧ r.rPort = some (b.setWidth 64)
    | .setbitat w => ∃ v : BitVec w.bits, r = .word w v ∧ r.rPort = some (v.setWidth 64)
    | .unsetbitat w => ∃ v : BitVec w.bits, r = .word w v ∧ r.rPort = some (v.setWidth 64)
    | .togglebitat w => ∃ v : BitVec w.bits, r = .word w v ∧ r.rPort = some (v.setWidth 64)
    | .asbool _ => ∃ b : Bool, r = .bool b ∧ r.rPort = some (if b then 1#64 else 0#64)
    | .ispoweroftwo _ => ∃ b : Bool, r = .bool b ∧ r.rPort = some (if b then 1#64 else 0#64)
    | .popcount w => ∃ n ≤ w.bits, r = .count n ∧ r.rPort = some (BitVec.ofNat 64 n)
    | .bitstring w => ∃ str, r = .str str ∧ str.length = w.bits ∧ r.osPort = some str
    | .frombitstring w => ∃ v : BitVec w.bits, r = .word w v ∧ r.rPort = some (v.setWidth 64)
    | .hexstring w => ∃ str, r = .str str ∧ 1 ≤ str.length ∧ str.length ≤ w.bits / 4 ∧ r.osPort = some str
    | .combinetowide w => ∃ (n : Arity) (v : BitVec n.width.bits),
        w = n.width ∧ r = .word n.width v ∧ r.rPort = some (v.setWidth 64)
    | .splitintobytes w => ∃ (n : Arity) (b : Vector Byte n.count),
        w = n.width ∧ r = .bytes n b ∧ (∀ k, r.otPort k = b[k]?) ∧ ∀ k, n.count ≤ k → r.otPort k = none
    | .reserved _ _ => False

/-- R28: an OK response has a value on exactly one of R, OS and OT; an error on none. -/
def Obligations.OneResultPort : Prop :=
  (∀ r : Result,
    ((Response.ok r).rPort.isSome ∧ (Response.ok r).osPort = none ∧ ∀ k, (Response.ok r).otPort k = none) ∨
    ((Response.ok r).rPort = none ∧ (Response.ok r).osPort.isSome ∧ ∀ k, (Response.ok r).otPort k = none) ∨
    ((Response.ok r).rPort = none ∧ (Response.ok r).osPort = none ∧
      ∀ k < 4, ((Response.ok r).otPort k).isSome)) ∧
  ∀ r : Response, r.status ≠ 0#2 → r.rPort = none ∧ r.osPort = none ∧ ∀ k, r.otPort k = none

/-! ## The invariant -/

/-- The invariant holds right after reset. -/
def Obligations.ResetMeetsInvariant : Prop := State.reset.Inv

/-- Every step keeps the invariant: the responses given stay bounded, a count by 64 and a string by R149's alphabet and
64 characters; the response ports hold the last response or nothing (entry 8), and nothing while reset is asserted
(entries 8 and 9); and every waiting input fits its ports (entry 7). -/
def Obligations.StepKeepsInvariant : Prop :=
  ∀ s t : State, s.Inv → step s = .next t → t.Inv

/-- R67: the host can put a string on port S exactly when it is not longer than STR_CAP, and issuing a command keeps
the invariant (where STR_CAP acts is the model's choice, entry 7). -/
def Obligations.IssueKeepsStrCap : Prop :=
  ∀ (s : State) (c : Command),
    (s.issue c = none ↔ ∃ cap, s.params.strCap = some cap ∧ cap < c.s.length) ∧
    ∀ t, s.issue c = some t → t = { s with pending := s.pending ++ [.command c] } ∧ (s.Inv → t.Inv)

/-! ## Encoding -/

/-- Decoding an encoded well-formed instruction gives it back. -/
def Obligations.DecodeEncode : Prop :=
  ∀ i : Instr, i.wellFormed = true → decode (encode i) = .instr i

/-- Every word that decodes is the encoding of exactly what it decodes to, which is well-formed. -/
def Obligations.EncodeDecode : Prop :=
  ∀ (w : CmdWord) (i : Instr), decode w = .instr i → encode i = w ∧ i.wellFormed = true

/-- R63: the opcode map, its match and mask table, and that no two rows match one word: a word matches the row of what
it decodes to and no other, and an illegal word matches none. -/
def Obligations.MatchMaskRows : Prop :=
  (∀ (op : Fin 12) (w : Width),
    let i := [Instr.bitat, .setbitat, .unsetbitat, .togglebitat, .asbool, .ispoweroftwo, .popcount, .bitstring,
      .frombitstring, .hexstring, .combinetowide, .splitintobytes].getD op.val .bitat w
    i.wellFormed = true →
      decode (BitVec.ofNat 32 op.val ||| ((codeOfWidth w).setWidth 32 <<< 4)) = .instr i ∧
      matchMask i = if op.val < 10 then (BitVec.ofNat 32 op.val, 0xFFFFFFCF#32)
        else (BitVec.ofNat 32 (0x20 + op.val), 0xFFFFFFEF#32)) ∧
  ∀ w : CmdWord,
    (∀ i, decode w = .instr i → ∀ j, (rowMatches (matchMask j) w = true ↔ matchMask j = matchMask i)) ∧
    (∀ why, decode w = .illegal why → ∀ j, rowMatches (matchMask j) w = false)

/-- Of all words exactly 44 are commands, all below 64 (30_encoding.md section 3). -/
def Obligations.FortyFourCommands : Prop :=
  ((List.range 64).filter fun n => isIllegalWord (BitVec.ofNat 32 n) = false).length = 44 ∧
  ∀ w : CmdWord, isIllegalWord w = false → w.toNat < 64

/-- R62: W = 8 · 2^WC for the ten scalar operations; for the tuple operations WC = 10 gives N = 4, WC = 11 gives
N = 8, and W = 8N. -/
def Obligations.WidthCodes : Prop :=
  widthOfCode 0b00#2 = .w8 ∧ widthOfCode 0b01#2 = .w16 ∧ widthOfCode 0b10#2 = .w32 ∧ widthOfCode 0b11#2 = .w64 ∧
  (∀ (op : Fin 10) (wc : BitVec 2),
    decode (BitVec.ofNat 32 (op.val + 16 * wc.toNat)) =
      .instr ([Instr.bitat, .setbitat, .unsetbitat, .togglebitat, .asbool, .ispoweroftwo, .popcount, .bitstring,
        .frombitstring, .hexstring].getD op.val .bitat (widthOfCode wc)) ∧
    (widthOfCode wc).bits = 8 * 2 ^ wc.toNat) ∧
  (widthOfCode 0b10#2).arity? = some .n4 ∧ (widthOfCode 0b11#2).arity? = some .n8 ∧
  (∀ n : Arity, n.width.bits = 8 * n.count) ∧ Arity.n4.count = 4 ∧ Arity.n8.count = 8 ∧
  decode 0x0000002A#32 = .instr (.combinetowide .w32) ∧ decode 0x0000003A#32 = .instr (.combinetowide .w64) ∧
  decode 0x0000002B#32 = .instr (.splitintobytes .w32) ∧ decode 0x0000003B#32 = .instr (.splitintobytes .w64) ∧
  ∀ (op : BitVec 4), op = 10#4 ∨ op = 11#4 →
    decode (BitVec.ofNat 32 op.toNat) = .illegal .tupleWidth ∧
    decode (BitVec.ofNat 32 (op.toNat + 16)) = .illegal .tupleWidth

/-- The ten worked encodings of 30_encoding.md section 4, decoded. -/
def Obligations.WorkedEncodings : Prop :=
  decode 0x00000010#32 = .instr (.bitat .w16) ∧ decode 0x00000001#32 = .instr (.setbitat .w8) ∧
  decode 0x00000033#32 = .instr (.togglebitat .w64) ∧ decode 0x00000005#32 = .instr (.ispoweroftwo .w8) ∧
  decode 0x00000016#32 = .instr (.popcount .w16) ∧ decode 0x00000017#32 = .instr (.bitstring .w16) ∧
  decode 0x00000018#32 = .instr (.frombitstring .w16) ∧ decode 0x00000029#32 = .instr (.hexstring .w32) ∧
  decode 0x0000003A#32 = .instr (.combinetowide .w64) ∧ decode 0x0000002B#32 = .instr (.splitintobytes .w32)

/-! ## Laws of the operations -/

/-- The seven laws of 40_bit_field.md section 3, for pos in range. -/
def Obligations.BitFieldLaws : Prop :=
  ∀ (w : Width) (c : Command), PosInRange w c.pos →
    ∃ (x y z : BitVec w.bits) (b : BitVec 1),
      answer (.setbitat w) c = some (.ok (.word w x)) ∧ answer (.unsetbitat w) c = some (.ok (.word w y)) ∧
      answer (.togglebitat w) c = some (.ok (.word w z)) ∧ answer (.bitat w) c = some (.ok (.bit b)) ∧
      answer (.setbitat w) (c.withA x) = some (.ok (.word w x)) ∧
      answer (.unsetbitat w) (c.withA y) = some (.ok (.word w y)) ∧
      answer (.togglebitat w) (c.withA z) = some (.ok (.word w (c.value w))) ∧
      answer (.bitat w) (c.withA x) = some (.ok (.bit 1#1)) ∧
      answer (.bitat w) (c.withA y) = some (.ok (.bit 0#1)) ∧
      answer (.bitat w) (c.withA z) = some (.ok (.bit (1#1 - b))) ∧
      ∀ q : Word32, PosInRange w q.toInt → q.toInt ≠ c.pos →
        answer (.bitat w) { c.withA x with p := q } = answer (.bitat w) { c with p := q } ∧
        answer (.bitat w) { c.withA y with p := q } = answer (.bitat w) { c with p := q } ∧
        answer (.bitat w) { c.withA z with p := q } = answer (.bitat w) { c with p := q }

/-- A value is a power of two exactly when its population count is 1, and true exactly when the count is not 0. -/
def Obligations.CountDecidesTests : Prop :=
  ∀ (w : Width) (c : Command), ∃ (n : Nat) (p b : Bool),
    answer (.popcount w) c = some (.ok (.count n)) ∧ answer (.ispoweroftwo w) c = some (.ok (.bool p)) ∧
    answer (.asbool w) c = some (.ok (.bool b)) ∧ (p = true ↔ n = 1) ∧ (b = true ↔ 1 ≤ n)

/-- The population count lies in [0, W], and is W exactly for the value with every bit set. -/
def Obligations.PopcountRange : Prop :=
  ∀ (w : Width) (c : Command), ∃ n, answer (.popcount w) c = some (.ok (.count n)) ∧ n ≤ w.bits ∧
    (n = w.bits ↔ c.valueNat w = 2 ^ w.bits - 1)

/-- The population count is the sum of what bitat answers at every position. -/
def Obligations.PopcountSumsBitat : Prop :=
  ∀ (w : Width) (c : Command),
    answer (.popcount w) c =
      some (.ok (.count (((List.range w.bits).map fun i =>
        (((answer (.bitat w) { c with p := BitVec.ofNat 32 i }).bind Response.rPort).map BitVec.toNat).getD 0).sum)))

/-- The algorithm the source describes gives the count at every width (its constants are from general knowledge,
entry 18): "No variant's result depends on the algorithm used". -/
def Obligations.SwarCountsBits : Prop :=
  ∀ (w : Width) (v : BitVec w.bits), popCountVariant w v = popCount v

/-- The binary string of a value reads back as the value, and a string of '0' and '1' is the binary string of what it
reads as. -/
def Obligations.BinaryRoundTrip : Prop :=
  (∀ (w : Width) (c : Command), ∃ str, answer (.bitstring w) c = some (.ok (.str str)) ∧
    ∀ d : Command, d.s = str → d.ri = 0 → answer (.frombitstring w) d = some (.ok (.word w (c.value w)))) ∧
  ∀ (w : Width) (d : Command), d.s.length = w.bits → (∀ ch ∈ d.s, ch = '0' ∨ ch = '1') → d.ri = 0 →
    ∃ v : BitVec w.bits, answer (.frombitstring w) d = some (.ok (.word w v)) ∧
      ∀ c : Command, answer (.bitstring w) (c.withA v) = some (.ok (.str d.s))

/-- Packing and unpacking are inverse to each other, for both arities. -/
def Obligations.TupleRoundTrip : Prop :=
  ∀ (n : Arity) (c : Command),
    (∃ v : BitVec n.width.bits, answer (.combinetowide n.width) c = some (.ok (.word n.width v)) ∧
      answer (.splitintobytes n.width) (c.withA v) = some (.ok (.bytes n (c.tuple n)))) ∧
    (∃ t : Vector Byte n.count, answer (.splitintobytes n.width) c = some (.ok (.bytes n t)) ∧
      ∀ d : Command, d.tuple n = t →
        answer (.combinetowide n.width) d = some (.ok (.word n.width (c.value n.width))))

/-- The eight-byte value is the first group's value times 2^32 plus the second group's (20_memory.md section 2). -/
def Obligations.NestedTuple : Prop :=
  ∀ c d : Command, (d.t[0] = c.t[4] ∧ d.t[1] = c.t[5] ∧ d.t[2] = c.t[6] ∧ d.t[3] = c.t[7]) →
    ∃ (v : BitVec 64) (hi lo : BitVec 32),
      answer (.combinetowide .w64) c = some (.ok (.word .w64 v)) ∧
      answer (.combinetowide .w32) c = some (.ok (.word .w32 hi)) ∧
      answer (.combinetowide .w32) d = some (.ok (.word .w32 lo)) ∧
      v.toNat = hi.toNat * 2 ^ 32 + lo.toNat

/-! ## The assembler -/

/-- R76: a line that assembles carries the command word of its mnemonic and width, which decodes back to it. -/
def Obligations.AssembledWord : Prop :=
  ∀ (rs : List Response) (base c : Command) (i : Instr) (args : List AsmOperand),
    assemble rs base (.op i args) = .ok c →
    i.isCommand = true ∧ i.wellFormed = true ∧ c.cmd = encode i ∧ decode c.cmd = .instr i

/-- The refusals of 30_encoding.md section 4: a value literal of 2^W or more, a pos or readIndex literal outside the
32-bit signed range, a tuple of the wrong arity and a byte literal of 256 or more, flat or nested, a tuple mnemonic with
.w8 or .w16. That a negative value or byte is refused, and which reason is named, is the model's choice (entry 15). -/
def Obligations.AssemblerRefusals : Prop :=
  ∀ (rs : List Response) (base : Command),
    (∀ (i : Instr) (w : Width) (n : Int) (args : List AsmOperand), i.wellFormed = true →
      i.reads.head? = some (.value w) → (n < 0 ∨ 2 ^ w.bits ≤ n) →
      assemble rs base (.op i (.num n :: args)) = .error .valueRange) ∧
    (∀ (i : Instr) (w : Width) (v n : Int), i.reads = [.value w, .pos] → 0 ≤ v ∧ v < 2 ^ w.bits →
      (n < -(2 ^ 31) ∨ 2 ^ 31 ≤ n) → assemble rs base (.op i [.num v, .num n]) = .error .signedRange) ∧
    (∀ (w : Width) (s : List Chr) (n : Int), (n < -(2 ^ 31) ∨ 2 ^ 31 ≤ n) →
      assemble rs base (.op (.frombitstring w) [.str s, .num n]) = .error .signedRange) ∧
    (∀ (n : Arity) (bs : List Int), bs.length ≠ n.count →
      assemble rs base (.op (.combinetowide n.width) [.tuple bs]) = .error .arity) ∧
    (∀ (n : Arity) (bs : List Int), bs.length = n.count → (∃ b ∈ bs, b < 0 ∨ 256 ≤ b) →
      assemble rs base (.op (.combinetowide n.width) [.tuple bs]) = .error .byteRange) ∧
    (∀ (n : Arity) (xs ys : List Int), ¬ (n = .n8 ∧ xs.length = 4 ∧ ys.length = 4) →
      assemble rs base (.op (.combinetowide n.width) [.nested xs ys]) = .error .arity) ∧
    (∀ xs ys : List Int, xs.length = 4 → ys.length = 4 → (∃ b ∈ xs ++ ys, b < 0 ∨ 256 ≤ b) →
      assemble rs base (.op (.combinetowide .w64) [.nested xs ys]) = .error .byteRange) ∧
    (∀ (w : Width) (args : List AsmOperand), w = .w8 ∨ w = .w16 →
      assemble rs base (.op (.combinetowide w) args) = .error .tupleWidth ∧
      assemble rs base (.op (.splitintobytes w) args) = .error .tupleWidth)

/-- R77: frombitstring without a readIndex reads from 0. R78: the nested tuple is the flat one, and the eight bytes
splitintobytes answers stand on OT in flat order. -/
def Obligations.PseudoForms : Prop :=
  ∀ (rs : List Response) (base : Command),
    (∀ (w : Width) (x : AsmOperand),
      assemble rs base (.op (.frombitstring w) [x]) = assemble rs base (.op (.frombitstring w) [x, .num 0])) ∧
    (∀ b0 b1 b2 b3 b4 b5 b6 b7 : Int,
      assemble rs base (.op (.combinetowide .w64) [.nested [b0, b1, b2, b3] [b4, b5, b6, b7]]) =
        assemble rs base (.op (.combinetowide .w64) [.tuple [b0, b1, b2, b3, b4, b5, b6, b7]])) ∧
    ∀ (s : State), ∃ b0 b1 b2 b3 b4 b5 b6 b7 : Byte,
      exec (.splitintobytes .w64) s = .next (s.respond (.ok (.bytes .n8 #v[b0, b1, b2, b3, b4, b5, b6, b7]))) ∧
      ∀ k, (Response.ok (.bytes .n8 #v[b0, b1, b2, b3, b4, b5, b6, b7])).otPort k =
        [b0, b1, b2, b3, b4, b5, b6, b7][k]?

/-- No mnemonic line can spell a reserved word: what assembles is never answered with IllegalCommand. -/
def Obligations.AssembledIsLegal : Prop :=
  ∀ (rs : List Response) (base c : Command) (i : Instr) (args : List AsmOperand) (s : State)
    (rest : List HostInput),
    assemble rs base (.op i args) = .ok c → s.pending = .command c :: rest → s.resetAsserted = false →
    s.params.oobPosPolicy = .draw →
    ∃ t r, step s = .next t ∧ t.outputs = some r ∧ r ≠ .illegalCommand

/-- R79 and the host's duty of 70_reset_and_hazards.md: `%k` of a response whose STATUS is not OK, or of no earlier
response, in any operand place, stops the listing before the command is issued, and is the reason named where the
operands before it are in order; of a scalar result it is put on port A by every opcode that reads A alone. (What a
wider result does there is the model's choice, entry 16.) -/
def Obligations.ResultReferences : Prop :=
  ∀ (rs : List Response) (s : State) (k : Nat) (ls : List AsmLine),
    ((k = 0 ∨ ∀ r, rs[k - 1]? ≠ some (.ok r)) →
      (∀ (i : Instr) (args : List AsmOperand), .ref k ∈ args →
        ∃ e, runLines (.op i args :: ls) rs s = .error (.line e)) ∧
      (∀ (i : Instr) (args : List AsmOperand), i.isCommand = true → i.wellFormed = true →
        runLines (.op i (.ref k :: args) :: ls) rs s = .error (.line .badRef)) ∧
      (∀ (i : Instr) (o p : Operand) (x : AsmOperand), i.isCommand = true → i.wellFormed = true → i.reads = [o, p] →
        (∃ c, asmOperand rs { s.ports with cmd := encode i } o x = .ok c) →
        runLines (.op i [x, .ref k] :: ls) rs s = .error (.line .badRef))) ∧
    (∀ (i : Instr) (w : Width) (r : Result) (x : Word64), i.isCommand = true → i.wellFormed = true →
      i.reads = [.value w] → k ≠ 0 → rs[k - 1]? = some (.ok r) → r.rPort = some x →
      assemble rs s.ports (.op i [.ref k]) = .ok { s.ports with cmd := encode i, a := x })

/-- R79, "usable in place of any operand": a result in the other operand places. A scalar stands for the value or the
pos of a bit command and for the readIndex, a string for the string, a tuple for the tuple of its arity; each is put on
its port as the response carried it (entry 16), and the ports no operand names keep their values (entry 17). -/
def Obligations.ReferenceOperands : Prop :=
  ∀ (rs : List Response) (base : Command) (k : Nat) (r : Result), k ≠ 0 → rs[k - 1]? = some (.ok r) →
    (∀ (i : Instr) (w : Width) (x : Word64) (n : Int), i.isCommand = true → i.reads = [.value w, .pos] →
      r.rPort = some x → -(2 ^ 31) ≤ n ∧ n < 2 ^ 31 →
      assemble rs base (.op i [.ref k, .num n]) =
        .ok { base with cmd := encode i, a := x, p := BitVec.ofInt 32 n }) ∧
    (∀ (i : Instr) (w : Width) (x : Word64) (n : Int), i.isCommand = true → i.reads = [.value w, .pos] →
      r.rPort = some x → 0 ≤ n ∧ n < 2 ^ w.bits → x.toNat < 2 ^ 31 →
      assemble rs base (.op i [.num n, .ref k]) =
        .ok { base with cmd := encode i, a := BitVec.ofInt 64 n, p := x.setWidth 32 }) ∧
    (∀ (w : Width) (x : Word64) (q : List Chr), r.rPort = some x → x.toNat < 2 ^ 31 →
      assemble rs base (.op (.frombitstring w) [.str q, .ref k]) =
        .ok { base with cmd := encode (.frombitstring w), s := q, ri := x.setWidth 32 }) ∧
    (∀ (w : Width) (q : List Chr) (n : Int), r.osPort = some q → -(2 ^ 31) ≤ n ∧ n < 2 ^ 31 →
      assemble rs base (.op (.frombitstring w) [.ref k, .num n]) =
        .ok { base with cmd := encode (.frombitstring w), s := q, ri := BitVec.ofInt 32 n }) ∧
    (∀ (n : Arity) (t : Vector Byte n.count), r = .bytes n t →
      ∃ c, assemble rs base (.op (.combinetowide n.width) [.ref k]) = .ok c ∧ c.tuple n = t ∧
        c = { base with cmd := encode (.combinetowide n.width), t := c.t } ∧
        ∀ (j : Nat) (h : j < 8), n.count ≤ j → c.t[j] = base.t[j])
end

