-- ==== Sys2Proof/Laws/State.lean ====
section
/-! SUPPORT. One lemma per field per update of State, each true by rfl. -/

namespace Sys2Proof.Machine

@[simp] theorem respond_ports (s : State) (r : Response) : (s.respond r).ports = s.ports := rfl
@[simp] theorem respond_pending (s : State) (r : Response) : (s.respond r).pending = s.pending := rfl
@[simp] theorem respond_resetAsserted (s : State) (r : Response) : (s.respond r).resetAsserted = s.resetAsserted := rfl
@[simp] theorem respond_outputs (s : State) (r : Response) : (s.respond r).outputs = some r := rfl
@[simp] theorem respond_trace (s : State) (r : Response) : (s.respond r).trace = s.trace ++ [r] := rfl
@[simp] theorem respond_params (s : State) (r : Response) : (s.respond r).params = s.params := rfl
@[simp] theorem respond_draws (s : State) (r : Response) : (s.respond r).draws = s.draws := rfl

@[simp] theorem respondOk_ports (s : State) (r : Result) : (s.respondOk r).ports = s.ports := rfl
@[simp] theorem respondOk_pending (s : State) (r : Result) : (s.respondOk r).pending = s.pending := rfl
@[simp] theorem respondOk_resetAsserted (s : State) (r : Result) : (s.respondOk r).resetAsserted = s.resetAsserted := rfl
@[simp] theorem respondOk_outputs (s : State) (r : Result) : (s.respondOk r).outputs = some (.ok r) := rfl
@[simp] theorem respondOk_trace (s : State) (r : Result) : (s.respondOk r).trace = s.trace ++ [.ok r] := rfl
@[simp] theorem respondOk_params (s : State) (r : Result) : (s.respondOk r).params = s.params := rfl
@[simp] theorem respondOk_draws (s : State) (r : Result) : (s.respondOk r).draws = s.draws := rfl

@[simp] theorem raise_ports (s : State) (e : ErrorCause) : (s.raise e).ports = s.ports := rfl
@[simp] theorem raise_pending (s : State) (e : ErrorCause) : (s.raise e).pending = s.pending := rfl
@[simp] theorem raise_resetAsserted (s : State) (e : ErrorCause) : (s.raise e).resetAsserted = s.resetAsserted := rfl
@[simp] theorem raise_outputs (s : State) (e : ErrorCause) : (s.raise e).outputs = some e.response := rfl
@[simp] theorem raise_trace (s : State) (e : ErrorCause) : (s.raise e).trace = s.trace ++ [e.response] := rfl
@[simp] theorem raise_params (s : State) (e : ErrorCause) : (s.raise e).params = s.params := rfl
@[simp] theorem raise_draws (s : State) (e : ErrorCause) : (s.raise e).draws = s.draws := rfl

@[simp] theorem drew_ports (s : State) : (s.drew).ports = s.ports := rfl
@[simp] theorem drew_pending (s : State) : (s.drew).pending = s.pending := rfl
@[simp] theorem drew_resetAsserted (s : State) : (s.drew).resetAsserted = s.resetAsserted := rfl
@[simp] theorem drew_outputs (s : State) : (s.drew).outputs = s.outputs := rfl
@[simp] theorem drew_trace (s : State) : (s.drew).trace = s.trace := rfl
@[simp] theorem drew_params (s : State) : (s.drew).params = s.params := rfl
@[simp] theorem drew_draws (s : State) : (s.drew).draws = s.draws + 1 := rfl

@[simp] theorem take_ports (s : State) (c : Command) (rest : List HostInput) : (s.take c rest).ports = c := rfl
@[simp] theorem take_pending (s : State) (c : Command) (rest : List HostInput) : (s.take c rest).pending = rest := rfl
@[simp] theorem take_resetAsserted (s : State) (c : Command) (rest : List HostInput) : (s.take c rest).resetAsserted = s.resetAsserted := rfl
@[simp] theorem take_outputs (s : State) (c : Command) (rest : List HostInput) : (s.take c rest).outputs = s.outputs := rfl
@[simp] theorem take_trace (s : State) (c : Command) (rest : List HostInput) : (s.take c rest).trace = s.trace := rfl
@[simp] theorem take_params (s : State) (c : Command) (rest : List HostInput) : (s.take c rest).params = s.params := rfl
@[simp] theorem take_draws (s : State) (c : Command) (rest : List HostInput) : (s.take c rest).draws = s.draws := rfl

@[simp] theorem assertReset_ports (s : State) (rest : List HostInput) : (s.assertReset rest).ports = s.ports := rfl
@[simp] theorem assertReset_pending (s : State) (rest : List HostInput) : (s.assertReset rest).pending = rest := rfl
@[simp] theorem assertReset_resetAsserted (s : State) (rest : List HostInput) : (s.assertReset rest).resetAsserted = true := rfl
@[simp] theorem assertReset_outputs (s : State) (rest : List HostInput) : (s.assertReset rest).outputs = none := rfl
@[simp] theorem assertReset_trace (s : State) (rest : List HostInput) : (s.assertReset rest).trace = s.trace := rfl
@[simp] theorem assertReset_params (s : State) (rest : List HostInput) : (s.assertReset rest).params = s.params := rfl
@[simp] theorem assertReset_draws (s : State) (rest : List HostInput) : (s.assertReset rest).draws = s.draws := rfl

@[simp] theorem cutOff_ports (s : State) (c : Command) (rest : List HostInput) : (s.cutOff c rest).ports = c := rfl
@[simp] theorem cutOff_pending (s : State) (c : Command) (rest : List HostInput) : (s.cutOff c rest).pending = rest := rfl
@[simp] theorem cutOff_resetAsserted (s : State) (c : Command) (rest : List HostInput) : (s.cutOff c rest).resetAsserted = true := rfl
@[simp] theorem cutOff_outputs (s : State) (c : Command) (rest : List HostInput) : (s.cutOff c rest).outputs = none := rfl
@[simp] theorem cutOff_trace (s : State) (c : Command) (rest : List HostInput) : (s.cutOff c rest).trace = s.trace := rfl
@[simp] theorem cutOff_params (s : State) (c : Command) (rest : List HostInput) : (s.cutOff c rest).params = s.params := rfl
@[simp] theorem cutOff_draws (s : State) (c : Command) (rest : List HostInput) : (s.cutOff c rest).draws = s.draws := rfl

@[simp] theorem releaseReset_ports (s : State) (rest : List HostInput) : (s.releaseReset rest).ports = s.ports := rfl
@[simp] theorem releaseReset_pending (s : State) (rest : List HostInput) : (s.releaseReset rest).pending = rest := rfl
@[simp] theorem releaseReset_resetAsserted (s : State) (rest : List HostInput) : (s.releaseReset rest).resetAsserted = false := rfl
@[simp] theorem releaseReset_outputs (s : State) (rest : List HostInput) : (s.releaseReset rest).outputs = s.outputs := rfl
@[simp] theorem releaseReset_trace (s : State) (rest : List HostInput) : (s.releaseReset rest).trace = s.trace := rfl
@[simp] theorem releaseReset_params (s : State) (rest : List HostInput) : (s.releaseReset rest).params = s.params := rfl
@[simp] theorem releaseReset_draws (s : State) (rest : List HostInput) : (s.releaseReset rest).draws = s.draws := rfl

end Sys2Proof.Machine
end

