-- ==== Sys2Proof/Laws/Ops.lean ====
section
/-! SUPPORT. What each shared operation can do, said once: the bit command's three outcomes, and the bit operators bit
by bit. -/

namespace Sys2Proof.Machine

open Sys2Proof.Config

theorem respondOk_eq (s : State) (r : Result) : s.respondOk r = s.respond (.ok r) := rfl

theorem raise_eq (s : State) (e : ErrorCause) : s.raise e = s.respond e.response := rfl

@[simp] theorem response_indexOutOfRange : ErrorCause.indexOutOfRange.response = .indexOutOfRange := rfl

@[simp] theorem response_illegalCommand : ErrorCause.illegalCommand.response = .illegalCommand := rfl

theorem width_bits_pos (w : Width) : 0 < w.bits := by cases w <;> decide

@[simp] theorem bits_w8 : Width.w8.bits = 8 := rfl
@[simp] theorem bits_w16 : Width.w16.bits = 16 := rfl
@[simp] theorem bits_w32 : Width.w32.bits = 32 := rfl
@[simp] theorem bits_w64 : Width.w64.bits = 64 := rfl
@[simp] theorem count_n4 : Arity.n4.count = 4 := rfl
@[simp] theorem width_n4 : Arity.n4.width = .w32 := rfl
@[simp] theorem count_n8 : Arity.n8.count = 8 := rfl
@[simp] theorem width_n8 : Arity.n8.width = .w64 := rfl
@[simp] theorem arity_w8 : Width.w8.arity? = none := rfl
@[simp] theorem arity_w16 : Width.w16.arity? = none := rfl
@[simp] theorem arity_w32 : Width.w32.arity? = some .n4 := rfl
@[simp] theorem arity_w64 : Width.w64.arity? = some .n8 := rfl

@[simp] theorem arity_width (n : Arity) : n.width.arity? = some n := by cases n <;> rfl

theorem width_bits_eq (n : Arity) : n.width.bits = 8 * n.count := by cases n <;> rfl

section BitCommand
variable {w : Width} {f : Nat → Result} {r : Result} {s : State}

theorem bitCommand_inRange (h : PosInRange w s.ports.pos) :
    bitCommand w f r s = .next (s.respond (.ok (f s.ports.pos.toNat))) := if_pos h

theorem bitCommand_draw (h : ¬ PosInRange w s.ports.pos) (hp : s.params.oobPosPolicy = .draw) :
    bitCommand w f r s = .next (s.drew.respond (.ok r)) := by
  rw [bitCommand, if_neg h, hp]
  rfl

theorem bitCommand_fault (h : ¬ PosInRange w s.ports.pos) (hp : s.params.oobPosPolicy = .fault) :
    bitCommand w f r s = .fault .posMisuse := by
  rw [bitCommand, if_neg h, hp]

/-- Every next state of a bit command: in range without a draw, or out of range under `draw` with one. -/
theorem bitCommand_next {t : State} (h : bitCommand w f r s = .next t) :
    (PosInRange w s.ports.pos ∧ t = s.respond (.ok (f s.ports.pos.toNat))) ∨
    (¬ PosInRange w s.ports.pos ∧ s.params.oobPosPolicy = .draw ∧ t = s.drew.respond (.ok r)) := by
  by_cases hr : PosInRange w s.ports.pos
  · rw [bitCommand_inRange hr] at h
    exact .inl ⟨hr, (Host.Outcome.next.inj h).symm⟩
  · cases hp : s.params.oobPosPolicy with
    | draw =>
      rw [bitCommand_draw hr hp] at h
      exact .inr ⟨hr, rfl, (Host.Outcome.next.inj h).symm⟩
    | fault =>
      rw [bitCommand_fault hr hp] at h
      cases h

end BitCommand

section BitOperators
variable {n : Nat} (v : BitVec n) {pos j : Nat}

theorem getLsbD_one_shiftLeft (hp : pos < n) : (1#n <<< pos).getLsbD j = decide (j = pos) := by
  rw [BitVec.getLsbD_shiftLeft, BitVec.getLsbD_one]
  by_cases h : j = pos
  · subst h
    simp [hp]
    omega
  · by_cases hj : j < pos
    · simp [hj, h]
    · have : j - pos ≠ 0 := by omega
      simp [this, h]

theorem bitAt_eq_ofBool (hp : pos < n) : bitAt v pos = BitVec.ofBool (v.getLsbD pos) := by
  apply BitVec.eq_of_getLsbD_eq
  intro i hi
  obtain rfl : i = 0 := by omega
  have hn : 0 < n := by omega
  simp [bitAt, hn]

theorem bitAt_eq_one (hp : pos < n) : bitAt v pos = 1#1 ↔ v.getLsbD pos = true := by
  rw [bitAt_eq_ofBool v hp]
  cases v.getLsbD pos <;> decide

theorem getLsbD_setBitAt (hp : pos < n) :
    (setBitAt v pos).getLsbD j = (v.getLsbD j || decide (j = pos)) := by
  rw [setBitAt, BitVec.getLsbD_or, getLsbD_one_shiftLeft hp]

theorem getLsbD_unsetBitAt (hp : pos < n) (hj : j < n) :
    (unsetBitAt v pos).getLsbD j = (v.getLsbD j && !decide (j = pos)) := by
  rw [unsetBitAt, BitVec.getLsbD_and, BitVec.getLsbD_not, getLsbD_one_shiftLeft hp]
  simp [hj]

theorem getLsbD_toggleBitAt (hp : pos < n) :
    (toggleBitAt v pos).getLsbD j = (v.getLsbD j ^^ decide (j = pos)) := by
  rw [toggleBitAt, BitVec.getLsbD_xor, getLsbD_one_shiftLeft hp]

end BitOperators

end Sys2Proof.Machine
end

