-- ==== Sys2Proof/Laws/Assembler.lean ====
section
/-! SUPPORT. What the assembler does with a result reference and with port T, said once. -/

namespace Sys2Proof.Machine

section References
variable {rs : List Response} {k : Nat} {r : Result}

theorem refResult_ok (hk : k ≠ 0) (h : rs[k - 1]? = some (.ok r)) : refResult rs k = .ok r := by
  rw [refResult, if_neg hk, h]

/-- A reference to no earlier response, or to an error, is refused. -/
theorem refResult_bad (h : k = 0 ∨ ∀ r, rs[k - 1]? ≠ some (.ok r)) : refResult rs k = .error .badRef := by
  unfold refResult
  split
  · rfl
  · next hk =>
    cases hr : rs[k - 1]? with
    | none => rfl
    | some q =>
      cases q with
      | ok r => exact absurd hr (h.resolve_left hk r)
      | indexOutOfRange => rfl
      | illegalCommand => rfl

theorem refScalar_ok {x : Word64} (h : refResult rs k = .ok r) (hx : r.rPort = some x) : refScalar rs k = .ok x := by
  simp only [refScalar, h]
  change (match r.rPort with | some v => Except.ok v | none => Except.error AsmError.operands) = _
  rw [hx]

theorem asmString_ref {q : List Config.Chr} (h : refResult rs k = .ok r) (hq : r.osPort = some q) :
    asmString rs (.ref k) = .ok q := by
  simp only [asmString, h]
  change (match r.osPort with | some v => Except.ok v | none => Except.error AsmError.operands) = _
  rw [hq]

theorem asmTuple_ref {n : Arity} {t : Vector Byte n.count} (h : refResult rs k = .ok (.bytes n t)) :
    asmTuple rs n (.ref k) = .ok t.toList := by
  simp only [asmTuple, h]
  exact if_pos rfl

/-- A bad reference is refused in every operand place. -/
theorem asmOperand_ref_bad (h : refResult rs k = .error .badRef) (c : Command) (o : Operand) :
    asmOperand rs c o (.ref k) = .error .badRef := by
  cases o <;> simp only [asmOperand, asmValue, asmSigned, asmString, asmTuple, refScalar, h] <;> rfl

/-- Operands with a bad reference among them are refused. -/
theorem asmOperands_ref_bad (h : refResult rs k = .error .badRef) (args : List AsmOperand) (hm : .ref k ∈ args) :
    ∀ (c : Command) (os : List Operand), ∃ e, asmOperands rs c os args = .error e := by
  induction args with
  | nil => cases hm
  | cons a args ih =>
    intro c os
    cases os with
    | nil => exact ⟨_, rfl⟩
    | cons o os =>
      simp only [asmOperands]
      cases ha : asmOperand rs c o a with
      | error e => exact ⟨e, rfl⟩
      | ok c' =>
        rcases List.mem_cons.1 hm with rfl | hm
        · rw [asmOperand_ref_bad h] at ha
          cases ha
        · exact ih hm c' os

end References

section Signed

theorem signed32_ok {n : Int} (h : -(2 ^ 31) ≤ n ∧ n < 2 ^ 31) : signed32 n = .ok (BitVec.ofInt 32 n) := if_pos h

/-- A scalar below 2^31 passes to a 32-bit port as it is. -/
theorem asmSigned_ref {rs : List Response} {k : Nat} {x : Word64} (h : refScalar rs k = .ok x) (hx : x.toNat < 2 ^ 31) :
    asmSigned rs (.ref k) = .ok (x.setWidth 32) := by
  have e : BitVec.ofInt 32 (x.toNat : Int) = x.setWidth 32 := by
    apply BitVec.eq_of_toNat_eq
    simp
  have hr : -(2 ^ 31) ≤ (x.toNat : Int) ∧ (x.toNat : Int) < 2 ^ 31 := by omega
  rw [← e, ← signed32_ok hr]
  simp only [asmSigned, h, bind, Except.bind]

end Signed

section PortT
variable {n : Arity} (c : Command) (t : Vector Byte n.count)

theorem withTuple_getElem (bs : List Byte) {j : Nat} (hj : j < 8) : (c.withTuple bs).t[j] = bs.getD j c.t[j] := by
  simp [Command.withTuple]

/-- The tuple put on port T is the tuple read from it. -/
theorem tuple_withTuple : (c.withTuple t.toList).tuple n = t := by
  apply Vector.ext
  intro i hi
  have h8 : i < 8 := Nat.lt_of_lt_of_le hi (arity_count_le n)
  simp [Command.tuple, withTuple_getElem c _ h8, hi]

/-- The bytes of port T behind the tuple stay as they are. -/
theorem withTuple_rest {j : Nat} (hj : j < 8) (hn : n.count ≤ j) : (c.withTuple t.toList).t[j] = c.t[j] := by
  rw [withTuple_getElem c _ hj]
  simp [hn]

end PortT

/-- A line that is refused stops the listing before anything is issued. -/
theorem runLines_refused {l : AsmLine} {ls : List AsmLine} {rs : List Response} {s : State} {e : AsmError}
    (h : assemble rs s.ports l = .error e) : runLines (l :: ls) rs s = .error (.line e) := by
  rw [runLines, h]

/-- A well-formed command line assembles as its operands do. -/
theorem assemble_op {rs : List Response} {base : Command} {i : Instr} {args : List AsmOperand}
    (hc : i.isCommand = true) (hw : i.wellFormed = true) :
    assemble rs base (.op i args) = asmOperands rs { base with cmd := encode i } i.reads (expandArgs i args) := by
  simp [assemble, hc, hw]

end Sys2Proof.Machine
end

