-- ==== Sys2Proof/Laws/Codec.lean ====
section
/-! SUPPORT. The loops of the codecs and of the population count, each said once bit by bit or digit by digit. -/

namespace Sys2Proof.Machine

open Sys2Proof.Config

/-- R130's count over the bits of the value. -/
theorem popCount_eq {n : Nat} (v : BitVec n) : popCount v = (List.range n).countP fun i => v.getLsbD i := by
  rw [popCount]
  refine List.countP_congr fun i hi => ?_
  have hi : i < n := List.mem_range.mp hi
  rw [beq_iff_eq, bitAt_eq_one v hi]

theorem popCount_le {n : Nat} (v : BitVec n) : popCount v ≤ n := by
  simpa [popCount] using List.countP_le_length (p := fun i => bitAt v i == 1#1) (l := List.range n)

@[simp] theorem bitString_length {n : Nat} (v : BitVec n) : (bitString v).length = n := by simp [bitString]

theorem bitString_getElem? {n : Nat} (v : BitVec n) {k : Nat} (hk : k < n) :
    (bitString v)[k]? = some (if v.getLsbD (n - 1 - k) then '1' else '0') := by
  have h : n - 1 - k < n := by omega
  simp [bitString, hk, bitAt_eq_one v h]

/-- The accumulator of R151's loop after the first m characters. -/
theorem fromBitString_foldl (n : Nat) (str : List Chr) (ri m j : Nat) (hm : m ≤ n) (hj : j < n) :
    ((List.range m).foldl
      (fun v k => if str[ri + k]? = some '1' then v ||| (1#n <<< (n - 1 - k)) else v) 0#n).getLsbD j =
      (decide (n - 1 - j < m) && decide (str[ri + (n - 1 - j)]? = some '1')) := by
  induction m with
  | zero => simp
  | succ m ih =>
    rw [List.range_succ, List.foldl_append, List.foldl_cons, List.foldl_nil]
    have hpos : n - 1 - m < n := by omega
    by_cases hk : j = n - 1 - m
    · have hjm : n - 1 - j = m := by omega
      split
      · next hc => simp [BitVec.getLsbD_or, getLsbD_one_shiftLeft hpos, hk, hc, show n - 1 - (n - 1 - m) = m by omega]
      · next hc =>
        rw [ih (by omega), hjm]
        simp [hc]
    · have e : (decide (n - 1 - j < m + 1)) = decide (n - 1 - j < m) := by
        apply decide_eq_decide.mpr
        omega
      split
      · rw [BitVec.getLsbD_or, getLsbD_one_shiftLeft hpos, ih (by omega), e]
        simp [hk]
      · rw [ih (by omega), e]

/-- R151, bit by bit: bit j is set exactly when the character at ri + W-1-j is '1'. -/
theorem getLsbD_fromBitString (n : Nat) (str : List Chr) (ri : Nat) {j : Nat} (hj : j < n) :
    (fromBitString n str ri).getLsbD j = decide (str[ri + (n - 1 - j)]? = some '1') := by
  rw [fromBitString, fromBitString_foldl n str ri n j le_rfl hj]
  simp [show n - 1 - j < n by omega]

/-- The value a list of base-16 digits spells, the first digit the most significant. -/
def hexValue (ds : List Nat) : Nat := ds.foldl (fun x d => 16 * x + d) 0

/-- R154's loop puts the base-16 digits of x, without leading zeros, in front of what it was given. -/
theorem hexLoop_spec (fuel x : Nat) (s : List Chr) (hx : x < 16 ^ fuel) :
    ∃ ds : List Nat, hexLoop fuel x s = ds.map digit ++ s ∧ (∀ d ∈ ds, d < 16) ∧ hexValue ds = x ∧
      ds.head? ≠ some 0 ∧ ds.length ≤ fuel := by
  induction fuel generalizing x s with
  | zero => exact ⟨[], by simp [hexLoop], by simp, by simp [hexValue]; omega, by simp, by simp⟩
  | succ fuel ih =>
    by_cases h0 : x = 0
    · exact ⟨[], by simp [hexLoop, h0], by simp, by simp [hexValue, h0], by simp, by simp⟩
    · have hq : x / 16 < 16 ^ fuel := by
        rw [Nat.div_lt_iff_lt_mul (by decide)]
        simpa [pow_succ] using hx
      obtain ⟨ds, he, hlt, hv, hh, hl⟩ := ih (x / 16) (digit (x % 16) :: s) hq
      refine ⟨ds ++ [x % 16], by simp [hexLoop, h0, he], ?_, ?_, ?_, by simpa using hl⟩
      · intro d hd
        rcases List.mem_append.mp hd with hd | hd
        · exact hlt d hd
        · rw [List.mem_singleton.mp hd]
          omega
      · rw [hexValue, List.foldl_append, List.foldl_cons, List.foldl_nil]
        rw [hexValue] at hv
        omega
      · cases ds with
        | nil =>
          have : x / 16 = 0 := by simpa [hexValue] using hv.symm
          simp
          omega
        | cons d ds => simpa using hh

/-- The bits of R180's accumulator: byte i stands at bit W - 8 - 8i. -/
theorem getLsbD_combine_foldl {W N : Nat} (b : Fin N → Byte) (l : List (Fin N)) (v : BitVec W) (j : Nat) :
    (l.foldl (fun (v : BitVec W) (i : Fin N) => v ||| ((b i).setWidth W <<< (W - 8 - 8 * i.val))) v).getLsbD j =
      (v.getLsbD j ||
        l.any fun i => decide (j < W) && !decide (j < W - 8 - 8 * i.val) &&
          ((b i).setWidth W).getLsbD (j - (W - 8 - 8 * i.val))) := by
  induction l generalizing v with
  | nil => simp
  | cons i l ih =>
    rw [List.foldl_cons, ih, BitVec.getLsbD_or, BitVec.getLsbD_shiftLeft, List.any_cons, Bool.or_assoc]

/-- R180 bit by bit: bit j of the value is bit j mod 8 of byte N-1-j/8. -/
theorem getLsbD_combineToWide (n : Arity) (t : Vector Byte n.count) (j : Nat) (hj : j < n.width.bits) :
    (combineToWide n t).getLsbD j =
      (t[n.count - 1 - j / 8]'(by cases n <;> simp <;> omega)).getLsbD (j % 8) := by
  have hW := width_bits_eq n
  have hN : n.count ≠ 0 := by cases n <;> simp
  refine (getLsbD_combine_foldl (fun i : Fin n.count => t[i.val]) (List.finRange n.count) 0#n.width.bits j).trans ?_
  rw [BitVec.getLsbD_zero, Bool.false_or, Bool.eq_iff_iff, List.any_eq_true]
  constructor
  · rintro ⟨i, -, h⟩
    simp only [Bool.and_eq_true, BitVec.getLsbD_setWidth, decide_eq_true_eq, Bool.not_eq_true',
      decide_eq_false_iff_not] at h
    obtain ⟨⟨_, h1⟩, _, h2⟩ := h
    have h8 : j - (n.width.bits - 8 - 8 * i.val) < 8 := BitVec.lt_of_getLsbD h2
    have hi := i.isLt
    have e1 : n.count - 1 - j / 8 = i.val := by omega
    have e2 : j % 8 = j - (n.width.bits - 8 - 8 * i.val) := by omega
    simp only [e1, e2]
    exact h2
  · intro h
    refine ⟨⟨n.count - 1 - j / 8, by omega⟩, List.mem_finRange _, ?_⟩
    simp only [Bool.and_eq_true, BitVec.getLsbD_setWidth, decide_eq_true_eq, Bool.not_eq_true',
      decide_eq_false_iff_not]
    rw [show j - (n.width.bits - 8 - 8 * (n.count - 1 - j / 8)) = j % 8 by omega]
    exact ⟨⟨hj, by omega⟩, by omega, h⟩

/-- R180's sum of shifted bytes, as natural numbers. -/
theorem toNat_combine_foldl {W N : Nat} (b : Fin N → Byte) (k : Fin N → Nat) (l : List (Fin N)) (v : BitVec W)
    (hk : ∀ i ∈ l, k i + 8 ≤ W) :
    (l.foldl (fun (v : BitVec W) (i : Fin N) => v ||| ((b i).setWidth W <<< k i)) v).toNat =
      l.foldl (fun acc i => acc ||| (b i).toNat <<< k i) v.toNat := by
  induction l generalizing v with
  | nil => rfl
  | cons i l ih =>
    have hi : k i + 8 ≤ W := hk i List.mem_cons_self
    have h8 : (b i).toNat < 2 ^ 8 := (b i).isLt
    have hW : (b i).toNat < 2 ^ W := h8.trans_le (Nat.pow_le_pow_right (by decide) (by omega))
    have hs : (b i).toNat <<< k i < 2 ^ W := by
      rw [Nat.shiftLeft_eq]
      calc (b i).toNat * 2 ^ k i < 2 ^ 8 * 2 ^ k i := Nat.mul_lt_mul_of_pos_right h8 (by positivity)
        _ = 2 ^ (k i + 8) := by rw [← pow_add, Nat.add_comm]
        _ ≤ 2 ^ W := Nat.pow_le_pow_right (by decide) hi
    rw [List.foldl_cons, List.foldl_cons, ih _ fun j hj => hk j (List.mem_cons_of_mem _ hj), BitVec.toNat_or,
      BitVec.toNat_shiftLeft, BitVec.toNat_setWidth, Nat.mod_eq_of_lt hW, Nat.mod_eq_of_lt hs]

theorem toNat_combineToWide (n : Arity) (t : Vector Byte n.count) :
    (combineToWide n t).toNat =
      (List.finRange n.count).foldl
        (fun acc (i : Fin n.count) => acc ||| t[i.val].toNat <<< (n.width.bits - 8 - 8 * i.val)) 0 := by
  have h := toNat_combine_foldl (W := n.width.bits) (fun i : Fin n.count => t[i.val])
    (fun i => n.width.bits - 8 - 8 * i.val) (List.finRange n.count) 0#n.width.bits fun i _ => by
      rw [width_bits_eq]
      omega
  rw [BitVec.toNat_zero] at h
  exact h

theorem splitIntoBytes_getElem (n : Arity) (v : BitVec n.width.bits) (i : Nat) (hi : i < n.count) :
    (splitIntoBytes n v)[i] =
      ((v >>> (n.width.bits - 8 - 8 * i)) &&& BitVec.ofNat n.width.bits 0xFF).setWidth 8 := by
  simp [splitIntoBytes]

/-- R181 bit by bit. -/
theorem getLsbD_splitIntoBytes (n : Arity) (v : BitVec n.width.bits) (i : Nat) (hi : i < n.count) (k : Nat)
    (hk : k < 8) : ((splitIntoBytes n v)[i]).getLsbD k = v.getLsbD (n.width.bits - 8 - 8 * i + k) := by
  have h255 : (255 : Nat).testBit k = true := by interval_cases k <;> rfl
  have hkW : k < n.width.bits := by cases n <;> simp <;> omega
  rw [splitIntoBytes_getElem n v i hi, BitVec.getLsbD_setWidth, BitVec.getLsbD_and, BitVec.getLsbD_ushiftRight,
    BitVec.getLsbD_ofNat]
  simp [hk, h255, hkW]

theorem tuple_getElem (c : Command) (n : Arity) (i : Nat) (hi : i < n.count) :
    (c.tuple n)[i] = c.t[i]'(Nat.lt_of_lt_of_le hi (arity_count_le n)) := by
  simp [Command.tuple]

theorem toNat_combineToWide_n4 (t : Vector Byte 4) :
    (combineToWide .n4 t).toNat =
      t[0].toNat <<< 24 ||| t[1].toNat <<< 16 ||| t[2].toNat <<< 8 ||| t[3].toNat := by
  refine (toNat_combineToWide .n4 t).trans ?_
  have h : List.finRange 4 = [0, 1, 2, 3] := by decide
  show (List.finRange 4).foldl (fun acc (i : Fin 4) => acc ||| t[i.val].toNat <<< (32 - 8 - 8 * i.val)) 0 = _
  simp [h]

/-- R180 at N = 4, on the ports. -/
theorem toNat_combine_tuple_n4 (c : Command) :
    (combineToWide .n4 (c.tuple .n4)).toNat =
      c.t[0].toNat <<< 24 ||| c.t[1].toNat <<< 16 ||| c.t[2].toNat <<< 8 ||| c.t[3].toNat := by
  have key : ∀ t : Vector Byte 4, (∀ i (hi : i < 4), t[i] = c.t[i]) → (combineToWide .n4 t).toNat =
      c.t[0].toNat <<< 24 ||| c.t[1].toNat <<< 16 ||| c.t[2].toNat <<< 8 ||| c.t[3].toNat :=
    fun t ht => (toNat_combineToWide_n4 t).trans (by simp only [ht])
  exact key (c.tuple .n4) fun i hi => tuple_getElem c .n4 i hi

theorem toNat_combineToWide_n8 (t : Vector Byte 8) :
    (combineToWide .n8 t).toNat =
      t[0].toNat <<< 56 ||| t[1].toNat <<< 48 ||| t[2].toNat <<< 40 ||| t[3].toNat <<< 32 |||
        t[4].toNat <<< 24 ||| t[5].toNat <<< 16 ||| t[6].toNat <<< 8 ||| t[7].toNat := by
  refine (toNat_combineToWide .n8 t).trans ?_
  have h : List.finRange 8 = [0, 1, 2, 3, 4, 5, 6, 7] := by decide
  show (List.finRange 8).foldl (fun acc (i : Fin 8) => acc ||| t[i.val].toNat <<< (64 - 8 - 8 * i.val)) 0 = _
  simp [h]

/-- R180 at N = 8, on the ports. -/
theorem toNat_combine_tuple_n8 (c : Command) :
    (combineToWide .n8 (c.tuple .n8)).toNat =
      c.t[0].toNat <<< 56 ||| c.t[1].toNat <<< 48 ||| c.t[2].toNat <<< 40 ||| c.t[3].toNat <<< 32 |||
        c.t[4].toNat <<< 24 ||| c.t[5].toNat <<< 16 ||| c.t[6].toNat <<< 8 ||| c.t[7].toNat := by
  have key : ∀ t : Vector Byte 8, (∀ i (hi : i < 8), t[i] = c.t[i]) → (combineToWide .n8 t).toNat =
      c.t[0].toNat <<< 56 ||| c.t[1].toNat <<< 48 ||| c.t[2].toNat <<< 40 ||| c.t[3].toNat <<< 32 |||
        c.t[4].toNat <<< 24 ||| c.t[5].toNat <<< 16 ||| c.t[6].toNat <<< 8 ||| c.t[7].toNat :=
    fun t ht => (toNat_combineToWide_n8 t).trans (by simp only [ht])
  exact key (c.tuple .n8) fun i hi => tuple_getElem c .n8 i hi

theorem digits_length : digits.length = 16 := rfl

end Sys2Proof.Machine
end

