-- ==== Sys2Proof/Laws/Decode.lean ====
section
/-! SUPPORT. What the decoder and the encoder do, in terms of the word as a number. -/

namespace Sys2Proof

/-- R73's test: the reserved bits are zero exactly below 64. -/
theorem rsvField_eq_zero_iff (w : CmdWord) : rsvField w = 0 ↔ w.toNat < 64 := by
  have hw := w.isLt
  constructor
  · intro h
    have := congrArg BitVec.toNat h
    simp [rsvField, Nat.shiftRight_eq_div_pow] at this
    omega
  · intro h
    apply BitVec.eq_of_toNat_eq
    simp [rsvField, Nat.shiftRight_eq_div_pow]
    omega

/-- A word below 64 is the word of its OP and its width code. -/
theorem eq_commandWord (w : CmdWord) (h : w.toNat < 64) :
    ∃ (op : BitVec 4) (wc : BitVec 2), w = commandWord op wc := by
  have key : ∀ n < 64, BitVec.ofNat 32 n = commandWord (BitVec.ofNat 4 n) (BitVec.ofNat 2 (n / 16)) := by decide
  exact ⟨_, _, by simpa using key w.toNat h⟩

theorem decode_of_rsv {w : CmdWord} (h : ¬ w.toNat < 64) : decode w = .illegal .reservedBits :=
  if_pos (mt (rsvField_eq_zero_iff w).1 h)

end Sys2Proof
end

