-- ==== Sys2Proof/Laws/Exec.lean ====
section
/-! SUPPORT. What exec and step can do, said once. -/

namespace Sys2Proof.Machine

open Sys2Proof.Config

theorem changeCommand_inRange {op : BitChange} {w : Width} {s : State} (h : PosInRange w s.ports.pos) :
    changeCommand op w s =
      .next (s.respond (.ok (.word w (changeBit op (s.ports.value w) s.ports.pos.toNat)))) :=
  bitCommand_inRange h

theorem changeCommand_draw {op : BitChange} {w : Width} {s : State} (h : ¬ PosInRange w s.ports.pos)
    (hp : s.params.oobPosPolicy = .draw) :
    changeCommand op w s =
      .next (s.drew.respond (.ok (.word w (freeWord s.draws op w (s.ports.value w) s.ports.pos)))) :=
  bitCommand_draw h hp

theorem execBitat_inRange {w : Width} {s : State} (h : PosInRange w s.ports.pos) :
    execBitat w s = .next (s.respond (.ok (.bit (bitAt (s.ports.value w) s.ports.pos.toNat)))) :=
  bitCommand_inRange h

theorem changeCommand_fault {op : BitChange} {w : Width} {s : State} (h : ¬ PosInRange w s.ports.pos)
    (hp : s.params.oobPosPolicy = .fault) : changeCommand op w s = .fault .posMisuse :=
  bitCommand_fault h hp

theorem execBitat_draw {w : Width} {s : State} (h : ¬ PosInRange w s.ports.pos)
    (hp : s.params.oobPosPolicy = .draw) :
    execBitat w s =
      .next (s.drew.respond (.ok (.bit (freeBit s.draws w (s.ports.value w) s.ports.pos)))) :=
  bitCommand_draw h hp

theorem execBitat_fault {w : Width} {s : State} (h : ¬ PosInRange w s.ports.pos)
    (hp : s.params.oobPosPolicy = .fault) : execBitat w s = .fault .posMisuse :=
  bitCommand_fault h hp

theorem execFrombitstring_error {w : Width} {s : State}
    (h : s.ports.readIndex < 0 ∨ s.ports.readIndex + w.bits > s.ports.s.length) :
    execFrombitstring w s = .next (s.respond .indexOutOfRange) := if_pos h

theorem execFrombitstring_ok {w : Width} {s : State}
    (h : ¬ (s.ports.readIndex < 0 ∨ s.ports.readIndex + w.bits > s.ports.s.length)) :
    execFrombitstring w s =
      .next (s.respond (.ok (.word w (fromBitString w.bits s.ports.s s.ports.readIndex.toNat)))) := if_neg h

/-- R26's Exec as a function of the command alone, for the commands that draw nothing. -/
def pureResponse : Instr → Command → Response
  | .bitat w, c => .ok (.bit (bitAt (c.value w) c.pos.toNat))
  | .setbitat w, c => .ok (.word w (setBitAt (c.value w) c.pos.toNat))
  | .unsetbitat w, c => .ok (.word w (unsetBitAt (c.value w) c.pos.toNat))
  | .togglebitat w, c => .ok (.word w (toggleBitAt (c.value w) c.pos.toNat))
  | .asbool w, c => .ok (.bool (asBool (c.value w)))
  | .ispoweroftwo w, c => .ok (.bool (isPowerOfTwo (c.value w)))
  | .popcount w, c => .ok (.count (popCount (c.value w)))
  | .bitstring w, c => .ok (.str (bitString (c.value w)))
  | .frombitstring w, c =>
    if c.readIndex < 0 ∨ c.readIndex + w.bits > c.string.length then .indexOutOfRange
    else .ok (.word w (fromBitString w.bits c.string c.readIndex.toNat))
  | .hexstring w, c => .ok (.str (hexString (c.value w)))
  | .combinetowide w, c =>
    match w.arity? with
    | some n => .ok (.word n.width (combineToWide n (c.tuple n)))
    | none => .illegalCommand
  | .splitintobytes w, c =>
    match w.arity? with
    | some n => .ok (.bytes n (splitIntoBytes n (c.value n.width)))
    | none => .illegalCommand
  | .reserved _ _, _ => .illegalCommand

/-- An instruction that does not misuse pos answers the response of the command on its ports, and nothing else
changes. -/
theorem exec_eq (i : Instr) (s : State) (h : s.ports.misusesPosOf i = false) :
    exec i s = .next (s.respond (pureResponse i s.ports)) := by
  cases i with
  | bitat w => exact execBitat_inRange (Decidable.of_not_not (of_decide_eq_false h))
  | setbitat w => exact changeCommand_inRange (op := .set) (Decidable.of_not_not (of_decide_eq_false h))
  | unsetbitat w => exact changeCommand_inRange (op := .unset) (Decidable.of_not_not (of_decide_eq_false h))
  | togglebitat w => exact changeCommand_inRange (op := .toggle) (Decidable.of_not_not (of_decide_eq_false h))
  | asbool w => rfl
  | ispoweroftwo w => rfl
  | popcount w => rfl
  | bitstring w => rfl
  | frombitstring w =>
    by_cases hb : s.ports.readIndex < 0 ∨ s.ports.readIndex + w.bits > s.ports.string.length
    · rw [pureResponse, if_pos hb]
      exact execFrombitstring_error hb
    · rw [pureResponse, if_neg hb]
      exact execFrombitstring_ok hb
  | hexstring w => rfl
  | combinetowide w => cases w <;> rfl
  | splitintobytes w => cases w <;> rfl
  | reserved op wc => rfl

/-- An instruction that does not misuse pos answers one response and changes nothing else. -/
theorem exec_respond (i : Instr) (s : State) (h : s.ports.misusesPosOf i = false) :
    ∃ r, exec i s = .next (s.respond r) := ⟨_, exec_eq i s h⟩

/-- A misuse of pos under `draw` answers OK with a free value, and one draw is counted. -/
theorem exec_misuse_draw (i : Instr) (s : State) (h : s.ports.misusesPosOf i = true)
    (hp : s.params.oobPosPolicy = .draw) : ∃ r, exec i s = .next (s.drew.respond (.ok r)) := by
  cases i with
  | bitat w => exact ⟨_, execBitat_draw (of_decide_eq_true h) hp⟩
  | setbitat w => exact ⟨_, changeCommand_draw (of_decide_eq_true h) hp⟩
  | unsetbitat w => exact ⟨_, changeCommand_draw (of_decide_eq_true h) hp⟩
  | togglebitat w => exact ⟨_, changeCommand_draw (of_decide_eq_true h) hp⟩
  | asbool w => simp [Command.misusesPosOf] at h
  | ispoweroftwo w => simp [Command.misusesPosOf] at h
  | popcount w => simp [Command.misusesPosOf] at h
  | bitstring w => simp [Command.misusesPosOf] at h
  | frombitstring w => simp [Command.misusesPosOf] at h
  | hexstring w => simp [Command.misusesPosOf] at h
  | combinetowide w => simp [Command.misusesPosOf] at h
  | splitintobytes w => simp [Command.misusesPosOf] at h
  | reserved op wc => simp [Command.misusesPosOf] at h

/-- A misuse of pos under the model-only policy `fault` stops. -/
theorem exec_misuse_fault (i : Instr) (s : State) (h : s.ports.misusesPosOf i = true)
    (hp : s.params.oobPosPolicy = .fault) : exec i s = .fault .posMisuse := by
  cases i with
  | bitat w => exact execBitat_fault (of_decide_eq_true h) hp
  | setbitat w => exact changeCommand_fault (of_decide_eq_true h) hp
  | unsetbitat w => exact changeCommand_fault (of_decide_eq_true h) hp
  | togglebitat w => exact changeCommand_fault (of_decide_eq_true h) hp
  | asbool w => simp [Command.misusesPosOf] at h
  | ispoweroftwo w => simp [Command.misusesPosOf] at h
  | popcount w => simp [Command.misusesPosOf] at h
  | bitstring w => simp [Command.misusesPosOf] at h
  | frombitstring w => simp [Command.misusesPosOf] at h
  | hexstring w => simp [Command.misusesPosOf] at h
  | combinetowide w => simp [Command.misusesPosOf] at h
  | splitintobytes w => simp [Command.misusesPosOf] at h
  | reserved op wc => simp [Command.misusesPosOf] at h

/-- Everything a next state of exec can be. -/
theorem exec_next_cases {i : Instr} {s t : State} (h : exec i s = .next t) :
    (s.ports.misusesPosOf i = false ∧ ∃ r, t = s.respond r) ∨
    (s.ports.misusesPosOf i = true ∧ s.params.oobPosPolicy = .draw ∧ ∃ r, t = s.drew.respond (.ok r)) := by
  cases hm : s.ports.misusesPosOf i with
  | false =>
    obtain ⟨r, hr⟩ := exec_respond i s hm
    exact .inl ⟨rfl, r, by simpa [hr] using h.symm⟩
  | true =>
    cases hp : s.params.oobPosPolicy with
    | draw =>
      obtain ⟨r, hr⟩ := exec_misuse_draw i s hm hp
      exact .inr ⟨rfl, rfl, r, by simpa [hr] using h.symm⟩
    | fault => simp [exec_misuse_fault i s hm hp] at h

section Step
variable {s : State} {c : Command} {rest : List HostInput}

theorem step_idle (h : s.pending = []) : step s = .next s := by rw [step, h]

theorem step_assertReset (h : s.pending = .assertReset :: rest) : step s = .next (s.assertReset rest) := by
  rw [step, h]

theorem step_cutOff (h : s.pending = .cutOff c :: rest) : step s = .next (s.cutOff c rest) := by rw [step, h]

theorem step_releaseReset (h : s.pending = .releaseReset :: rest) : step s = .next (s.releaseReset rest) := by
  rw [step, h]

theorem step_inReset (h : s.pending = .command c :: rest) (hr : s.resetAsserted = true) :
    step s = .next (s.take c rest) := by
  simp [step, h, hr]

theorem step_serve (h : s.pending = .command c :: rest) (hr : s.resetAsserted = false) :
    step s = serve (s.take c rest) := by
  simp [step, h, hr]

theorem serve_instr {i : Instr} (h : decode s.ports.cmd = .instr i) : serve s = exec i s := by rw [serve, h]

theorem serve_illegal {why : IllegalCause} (h : decode s.ports.cmd = .illegal why) :
    serve s = .next (s.respond .illegalCommand) := by
  rw [serve, h]
  rfl

/-- R75 and R26 together: the response of the command its ports carry. -/
def servedResponse (c : Command) : Response :=
  match decode c.cmd with
  | .instr i => pureResponse i c
  | .illegal _ => .illegalCommand

theorem serve_eq (s : State) (h : s.ports.misusesPos = false) :
    serve s = .next (s.respond (servedResponse s.ports)) := by
  unfold Command.misusesPos at h
  cases hd : decode s.ports.cmd with
  | instr i =>
    rw [hd] at h
    rw [serve_instr hd, exec_eq i s h, servedResponse, hd]
  | illegal why => rw [serve_illegal hd, servedResponse, hd]

/-- Everything a next state of serving the command on the ports can be. -/
theorem serve_next_cases {t : State} (h : serve s = .next t) :
    (s.ports.misusesPos = false ∧ ∃ r, t = s.respond r) ∨
    (s.ports.misusesPos = true ∧ s.params.oobPosPolicy = .draw ∧ ∃ r, t = s.drew.respond (.ok r)) := by
  cases hd : decode s.ports.cmd with
  | instr i =>
    rw [serve_instr hd] at h
    simpa [Command.misusesPos, hd] using exec_next_cases h
  | illegal why =>
    rw [serve_illegal hd] at h
    exact .inl ⟨by simp [Command.misusesPos, hd], _, by simpa using h.symm⟩

/-- One step of a run. -/
theorem run_succ {k : Nat} {t : State} (h : step s = .next t) :
    Host.Core.run Sys2Proof.core (k + 1) s = Host.Core.run Sys2Proof.core k t := by
  have h' : Sys2Proof.core.step s = .next t := h
  simp only [Host.Core.run]
  rw [h']

theorem run_zero : Host.Core.run Sys2Proof.core 0 s = .next s := rfl

end Step

end Sys2Proof.Machine
end

