-- ==== Sys2Proof/Laws/PerInstr.lean ====
section
/-! SUPPORT. Laws made for each instruction: the word of every instruction leaves the reserved bits zero. -/

namespace Sys2Proof.Laws.ReservedZero

/-- 30_encoding.md R61: RSV = CMD[31:6] is zero in every encoded word. -/
def Statement (i : Instr) : Prop := rsvField (encode i) = 0

/-- The reserved bits of a command word, whatever its fields. -/
theorem rsvField_commandWord (op : BitVec 4) (wc : BitVec 2) : rsvField (commandWord op wc) = 0 := by
  revert op wc
  decide

theorem bitat (w : Width) : Statement (.bitat w) := rsvField_commandWord _ _
theorem setbitat (w : Width) : Statement (.setbitat w) := rsvField_commandWord _ _
theorem unsetbitat (w : Width) : Statement (.unsetbitat w) := rsvField_commandWord _ _
theorem togglebitat (w : Width) : Statement (.togglebitat w) := rsvField_commandWord _ _
theorem asbool (w : Width) : Statement (.asbool w) := rsvField_commandWord _ _
theorem ispoweroftwo (w : Width) : Statement (.ispoweroftwo w) := rsvField_commandWord _ _
theorem popcount (w : Width) : Statement (.popcount w) := rsvField_commandWord _ _
theorem bitstring (w : Width) : Statement (.bitstring w) := rsvField_commandWord _ _
theorem frombitstring (w : Width) : Statement (.frombitstring w) := rsvField_commandWord _ _
theorem hexstring (w : Width) : Statement (.hexstring w) := rsvField_commandWord _ _
theorem combinetowide (w : Width) : Statement (.combinetowide w) := rsvField_commandWord _ _
theorem splitintobytes (w : Width) : Statement (.splitintobytes w) := rsvField_commandWord _ _
theorem reserved (op : BitVec 4) (wc : BitVec 2) : Statement (.reserved op wc) := rsvField_commandWord _ _

end Sys2Proof.Laws.ReservedZero
end

