-- ==== Sys2Proof/Laws/Safety.lean ====
section
/-! SUPPORT. The terms of Safety.lean as equations. -/

namespace Sys2Proof.Machine

/-- The answer of an instruction that does not misuse pos. -/
theorem answer_eq (i : Instr) (c : Command) (h : c.misusesPosOf i = false) :
    answer i c = some (pureResponse i c) := by
  rw [answer, exec_eq i _ h]
  rfl

/-- The response from reset of a command that does not misuse pos. -/
theorem respondsFromReset_eq (c : Command) (h : c.misusesPos = false) :
    respondsFromReset c = some (servedResponse c) := by
  have e : step { State.reset with pending := [.command c] } =
      .next ((({ State.reset with pending := [.command c] } : State).take c []).respond (servedResponse c)) :=
    (step_serve (s := { State.reset with pending := [.command c] }) (c := c) (rest := []) rfl rfl).trans
      (serve_eq _ h)
  unfold respondsFromReset
  rw [e]
  rfl

/-- A misuse of pos under `draw` answers what R100 allows, and one draw is counted. -/
theorem exec_misuse_mayDraw (i : Instr) (s : State) (h : s.ports.misusesPosOf i = true)
    (hp : s.params.oobPosPolicy = .draw) : ∃ r, exec i s = .next (s.drew.respond r) ∧ mayDraw i r := by
  cases i with
  | bitat w => exact ⟨_, execBitat_draw (of_decide_eq_true h) hp, _, rfl⟩
  | setbitat w => exact ⟨_, changeCommand_draw (of_decide_eq_true h) hp, _, rfl⟩
  | unsetbitat w => exact ⟨_, changeCommand_draw (of_decide_eq_true h) hp, _, rfl⟩
  | togglebitat w => exact ⟨_, changeCommand_draw (of_decide_eq_true h) hp, _, rfl⟩
  | asbool w => simp [Command.misusesPosOf] at h
  | ispoweroftwo w => simp [Command.misusesPosOf] at h
  | popcount w => simp [Command.misusesPosOf] at h
  | bitstring w => simp [Command.misusesPosOf] at h
  | frombitstring w => simp [Command.misusesPosOf] at h
  | hexstring w => simp [Command.misusesPosOf] at h
  | combinetowide w => simp [Command.misusesPosOf] at h
  | splitintobytes w => simp [Command.misusesPosOf] at h
  | reserved op wc => simp [Command.misusesPosOf] at h

theorem valueNat_eq_toNat (c : Command) (w : Width) : c.valueNat w = (c.value w).toNat := by
  simp [Command.valueNat, Command.value]

theorem width_bits_le (w : Width) : w.bits ≤ 64 := by cases w <;> simp

/-- A result put back on port A is read back whole. -/
theorem value_withA (c : Command) (w : Width) (v : BitVec w.bits) : (c.withA v).value w = v := by
  simp [Command.withA, Command.value, BitVec.setWidth_setWidth_of_le, width_bits_le w]

end Sys2Proof.Machine
end

