-- ==== Sys2Proof/Laws/Swar.lean ====
section
/-! SUPPORT. The fold of 41_popcount.md R132 acts on each byte of the value by itself: lemmas on natural numbers, one
lane at a time, and the step from the bit vector to them. -/

namespace Sys2Proof.Machine

/-- The byte b repeated m times. -/
def repByte (b : Nat) : Nat → Nat
  | 0 => 0
  | m + 1 => 256 * repByte b m + b

/-- The sum of the low m bytes of v, each replaced by f of it. -/
def mapBytes (f : Nat → Nat) : Nat → Nat → Nat
  | 0, _ => 0
  | m + 1, v => 256 * mapBytes f m (v / 256) + f (v % 256)

/-- The set bits of a byte. -/
def byteCount (r : Nat) : Nat := (List.range 8).countP fun i => r.testBit i

/-- The set bits of the low m bytes of v, byte by byte. -/
def bytesCount : Nat → Nat → Nat
  | 0, _ => 0
  | m + 1, v => byteCount (v % 256) + bytesCount m (v / 256)

/-- R132's first step: pairs. -/
def foldPairs (m v : Nat) : Nat := v - ((v / 2) &&& repByte 0x55 m)

/-- R132's second step: nibbles. -/
def foldNibbles (m x : Nat) : Nat := (x &&& repByte 0x33 m) + ((x / 4) &&& repByte 0x33 m)

/-- R132's third step: bytes. -/
def foldBytes (m x : Nat) : Nat := (x + x / 16) &&& repByte 0x0F m

theorem byteCount_le (r : Nat) : byteCount r ≤ 8 :=
  List.countP_le_length.trans (le_of_eq List.length_range)

theorem testBit_lane (q r i : Nat) (hr : r < 256) :
    (256 * q + r).testBit i = if i < 8 then r.testBit i else q.testBit (i - 8) := by
  simpa using Nat.testBit_two_pow_mul_add (i := 8) q (b := r) hr i

theorem and_lane (q r M c : Nat) (hr : r < 256) (hc : c < 256) :
    (256 * q + r) &&& (256 * M + c) = 256 * (q &&& M) + (r &&& c) := by
  refine Nat.eq_of_testBit_eq fun i => ?_
  rw [Nat.testBit_and, testBit_lane q r i hr, testBit_lane M c i hc,
    testBit_lane _ _ i (lt_of_le_of_lt Nat.and_le_left hr)]
  split <;> simp

/-- A shift right does not cross a lane when the mask clears what it carries in. -/
theorem shift_lane (k q r M c : Nat) (hr : r < 256) (hc : c < 2 ^ (8 - k)) :
    ((256 * q + r) / 2 ^ k) &&& (256 * M + c) = 256 * ((q / 2 ^ k) &&& M) + ((r / 2 ^ k) &&& c) := by
  have hc' : c < 256 := lt_of_lt_of_le hc (Nat.pow_le_pow_right (by decide) (by omega : 8 - k ≤ 8))
  refine Nat.eq_of_testBit_eq fun i => ?_
  rw [Nat.testBit_and, Nat.testBit_div_two_pow, testBit_lane q r _ hr, testBit_lane M c _ hc',
    testBit_lane _ _ _ (lt_of_le_of_lt Nat.and_le_right hc')]
  simp only [Nat.testBit_and, Nat.testBit_div_two_pow]
  by_cases h1 : i < 8
  · by_cases h2 : i + k < 8
    · simp [h1, h2]
    · have hz : c.testBit i = false :=
        Nat.testBit_lt_two_pow (lt_of_lt_of_le hc (Nat.pow_le_pow_right (by decide) (by omega)))
      simp [h1, hz]
  · have h2 : ¬ i + k < 8 := by omega
    simp only [h1, h2, if_false]
    rw [show i + k - 8 = i - 8 + k by omega]

theorem foldPairs_lane (m q r : Nat) (hr : r < 256) :
    foldPairs (m + 1) (256 * q + r) = 256 * foldPairs m q + foldPairs 1 r := by
  have h := shift_lane 1 q r (repByte 0x55 m) 0x55 hr (by decide)
  have h1 : (r / 2 &&& 0x55) ≤ r := Nat.and_le_left.trans (Nat.div_le_self _ _)
  have h2 : (q / 2 &&& repByte 0x55 m) ≤ q := Nat.and_le_left.trans (Nat.div_le_self _ _)
  rw [pow_one] at h
  rw [foldPairs, foldPairs, foldPairs, show repByte 0x55 (m + 1) = 256 * repByte 0x55 m + 0x55 from rfl, h,
    show repByte 0x55 1 = 0x55 from rfl]
  omega

theorem foldNibbles_lane (m q r : Nat) (hr : r < 256) :
    foldNibbles (m + 1) (256 * q + r) = 256 * foldNibbles m q + foldNibbles 1 r := by
  have h := shift_lane 2 q r (repByte 0x33 m) 0x33 hr (by decide)
  rw [show (2 : Nat) ^ 2 = 4 from rfl] at h
  rw [foldNibbles, foldNibbles, foldNibbles, show repByte 0x33 (m + 1) = 256 * repByte 0x33 m + 0x33 from rfl, h,
    and_lane _ _ _ _ hr (by decide), show repByte 0x33 1 = 0x33 from rfl]
  ring

theorem foldBytes_lane (m q r : Nat) (hr : r < 256) (hr2 : r / 16 ≤ 7) (hq : q % 16 ≤ 7) (hr3 : r % 16 ≤ 7) :
    foldBytes (m + 1) (256 * q + r) = 256 * foldBytes m q + foldBytes 1 r := by
  have e : 256 * q + r + (256 * q + r) / 16 = 256 * (q + q / 16) + (r + r / 16 + 16 * (q % 16)) := by omega
  rw [foldBytes, foldBytes, foldBytes, e, show repByte 0x0F (m + 1) = 256 * repByte 0x0F m + 0x0F from rfl,
    and_lane _ _ _ _ (by omega) (by decide), show repByte 0x0F 1 = 2 ^ 4 - 1 from rfl,
    show (0x0F : Nat) = 2 ^ 4 - 1 from rfl, Nat.and_two_pow_sub_one_eq_mod, Nat.and_two_pow_sub_one_eq_mod]
  omega

/-- One byte: the fold counts its bits, and no lane overflows on the way. -/
theorem fold_byte : ∀ r < 256,
    foldPairs 1 r < 256 ∧ foldNibbles 1 (foldPairs 1 r) < 256 ∧ foldNibbles 1 (foldPairs 1 r) / 16 ≤ 4 ∧
      foldNibbles 1 (foldPairs 1 r) % 16 ≤ 4 ∧ foldBytes 1 (foldNibbles 1 (foldPairs 1 r)) = byteCount r := by
  decide +kernel

/-- The fold replaces each byte by its population count. -/
theorem fold_eq_mapBytes (m v : Nat) (hv : v < 256 ^ m) :
    foldBytes m (foldNibbles m (foldPairs m v)) = mapBytes byteCount m v ∧
      foldNibbles m (foldPairs m v) % 16 ≤ 4 := by
  induction m generalizing v with
  | zero =>
    obtain rfl : v = 0 := by simpa using hv
    decide
  | succ m ih =>
    obtain ⟨q, r, hr, rfl⟩ : ∃ q r, r < 256 ∧ v = 256 * q + r :=
      ⟨v / 256, v % 256, Nat.mod_lt _ (by decide), by omega⟩
    have hq : q < 256 ^ m := by
      rw [pow_succ] at hv
      omega
    obtain ⟨hf, hn⟩ := ih q hq
    obtain ⟨h1, h2, h3, h4, h5⟩ := fold_byte r hr
    rw [foldPairs_lane m q r hr, foldNibbles_lane m _ _ h1]
    refine ⟨?_, by omega⟩
    rw [foldBytes_lane m _ _ h2 (by omega) (by omega) (by omega), hf, h5, mapBytes,
      show (256 * q + r) / 256 = q by omega, show (256 * q + r) % 256 = r by omega]

/-- The count of R130, byte by byte. -/
theorem popCount_eq_bytesCount {n m : Nat} (h : n = 8 * m) (v : BitVec n) : popCount v = bytesCount m v.toNat := by
  have key : ∀ m v : Nat, ((List.range (8 * m)).countP fun i => v.testBit i) = bytesCount m v := by
    intro m
    induction m with
    | zero => exact fun _ => rfl
    | succ m ih =>
      intro v
      have hv : v = 256 * (v / 256) + v % 256 := by omega
      have hr : v % 256 < 256 := Nat.mod_lt _ (by decide)
      rw [bytesCount, ← ih, byteCount, show 8 * (m + 1) = 8 + 8 * m by ring, List.range_add, List.countP_append,
        List.countP_map]
      congr 1
      · refine List.countP_congr fun i hi => ?_
        rw [hv, testBit_lane _ _ _ hr, if_pos (List.mem_range.1 hi), ← hv]
      · refine List.countP_congr fun i _ => ?_
        simp only [Function.comp]
        rw [hv, testBit_lane _ _ _ hr, if_neg (by omega), ← hv]
        simp
  subst h
  rw [popCount_eq, ← key]
  rfl

/-- R132 on a bit vector of m bytes is the product of the byte counts with the repeated 0x01, shifted down. -/
theorem popCountSwar_toNat {n m : Nat} (v : BitVec n) (hn : 2 ^ n = 256 ^ m)
    (h55 : (repeatByte n 0x55#8).toNat = repByte 0x55 m) (h33 : (repeatByte n 0x33#8).toNat = repByte 0x33 m)
    (h0F : (repeatByte n 0x0F#8).toNat = repByte 0x0F m) (h01 : (repeatByte n 0x01#8).toNat = repByte 0x01 m)
    (hb : 2 * repByte 0x33 m + 2 * repByte 0x33 m / 16 < 2 ^ n) :
    (popCountSwar v).toNat = mapBytes byteCount m v.toNat * repByte 1 m % 2 ^ n / 2 ^ (n - 8) := by
  have h1 : (v - ((v >>> 1) &&& repeatByte n 0x55#8)).toNat = foldPairs m v.toNat := by
    rw [BitVec.toNat_sub_of_le, BitVec.toNat_and, BitVec.toNat_ushiftRight, h55]
    · rfl
    · rw [BitVec.le_def, BitVec.toNat_and, BitVec.toNat_ushiftRight, Nat.shiftRight_eq_div_pow]
      exact Nat.and_le_left.trans (Nat.div_le_self _ _)
  have le2 : ∀ x, foldNibbles m x ≤ 2 * repByte 0x33 m := by
    intro x
    have := @Nat.and_le_right x (repByte 0x33 m)
    have := @Nat.and_le_right (x / 4) (repByte 0x33 m)
    rw [foldNibbles]
    omega
  have h2 : ∀ x : BitVec n,
      ((x &&& repeatByte n 0x33#8) + ((x >>> 2) &&& repeatByte n 0x33#8)).toNat = foldNibbles m x.toNat := by
    intro x
    have e : (x.toNat &&& repByte 0x33 m) + ((x.toNat >>> 2) &&& repByte 0x33 m) = foldNibbles m x.toNat := by
      rw [Nat.shiftRight_eq_div_pow]
      rfl
    have := le2 x.toNat
    rw [BitVec.toNat_add, BitVec.toNat_and, BitVec.toNat_and, BitVec.toNat_ushiftRight, h33, e,
      Nat.mod_eq_of_lt (by omega)]
  have h3 : ∀ x : BitVec n, x.toNat ≤ 2 * repByte 0x33 m →
      ((x + (x >>> 4)) &&& repeatByte n 0x0F#8).toNat = foldBytes m x.toNat := by
    intro x hx
    have hd : x.toNat / 2 ^ 4 ≤ 2 * repByte 0x33 m / 16 := Nat.div_le_div_right hx
    rw [BitVec.toNat_and, BitVec.toNat_add, BitVec.toNat_ushiftRight, h0F, Nat.shiftRight_eq_div_pow,
      Nat.mod_eq_of_lt (by omega)]
    rfl
  have hv := (fold_eq_mapBytes m v.toNat (by rw [← hn]; exact v.isLt)).1
  unfold popCountSwar
  simp only []
  rw [BitVec.toNat_ushiftRight, BitVec.toNat_mul, h3 _ (by rw [h2]; exact le2 _), h2, h1, hv, h01,
    Nat.shiftRight_eq_div_pow]

/-- The top byte of a product that is written out in powers of 256. -/
theorem top_byte {p x Q S r : Nat} (hx : x = 256 * p * Q + p * S + r) (hr : r < p) (hS : S < 256) :
    x % (256 * p) / p = S := by
  have h1 : p * S + r < 256 * p := by nlinarith
  rw [hx, Nat.add_assoc, Nat.mul_add_mod, Nat.mod_eq_of_lt h1, Nat.mul_add_div (by omega), Nat.div_eq_of_lt hr,
    Nat.add_zero]

end Sys2Proof.Machine
end

