-- ==== Sys2Proof/Tests/Slice0.lean ====
section
/-! SUPPORT. The model's own tests. The expected results are the spec's: 95_test_vectors.md (ids in the comments) and
the encodings of 30_encoding.md. The witnesses show that the hypotheses of each statement can be met together. -/

namespace Sys2Proof.Tests

open Sys2Proof.Machine Sys2Proof.Config

/-! ## WellFormed: a term each check refuses -/

theorem test_wf_refuses_combinetowide_w8 : (Instr.combinetowide .w8).wellFormed = false := by decide
theorem test_wf_refuses_combinetowide_w16 : (Instr.combinetowide .w16).wellFormed = false := by decide
theorem test_wf_refuses_splitintobytes_w16 : (Instr.splitintobytes .w16).wellFormed = false := by decide
theorem test_wf_refuses_reserved_opB : (Instr.reserved 0xB#4 0#2).wellFormed = false := by decide
theorem test_wf_admits_reserved_opC : (Instr.reserved 0xC#4 3#2).wellFormed = true := by decide

/-! ## Decode: each row's word written out from R61 to R63 (RSV, then WC, then OP) -/

theorem test_decode_bitat : decode 0b00000000000000000000000000_01_0000#32 = .instr (.bitat .w16) := by decide
theorem test_decode_setbitat : decode 0b00000000000000000000000000_00_0001#32 = .instr (.setbitat .w8) := by decide
theorem test_decode_unsetbitat : decode 0b00000000000000000000000000_10_0010#32 = .instr (.unsetbitat .w32) := by decide
theorem test_decode_togglebitat : decode 0b00000000000000000000000000_11_0011#32 = .instr (.togglebitat .w64) := by decide
theorem test_decode_asbool : decode 0b00000000000000000000000000_01_0100#32 = .instr (.asbool .w16) := by decide
theorem test_decode_ispoweroftwo : decode 0b00000000000000000000000000_10_0101#32 = .instr (.ispoweroftwo .w32) := by decide
theorem test_decode_popcount : decode 0b00000000000000000000000000_11_0110#32 = .instr (.popcount .w64) := by decide
theorem test_decode_bitstring : decode 0b00000000000000000000000000_00_0111#32 = .instr (.bitstring .w8) := by decide
theorem test_decode_frombitstring : decode 0b00000000000000000000000000_01_1000#32 = .instr (.frombitstring .w16) := by decide
theorem test_decode_hexstring : decode 0b00000000000000000000000000_10_1001#32 = .instr (.hexstring .w32) := by decide
theorem test_decode_combinetowide : decode 0b00000000000000000000000000_10_1010#32 = .instr (.combinetowide .w32) := by decide
theorem test_decode_splitintobytes : decode 0b00000000000000000000000000_11_1011#32 = .instr (.splitintobytes .w64) := by decide
theorem test_decode_reserved : decode 0b00000000000000000000000000_01_1110#32 = .instr (.reserved 0xE#4 1#2) := by decide
/-- EN4, EN5. -/
theorem test_decode_tuple_w8_w16 :
    decode 0x0000000B#32 = .illegal .tupleWidth ∧ decode 0x0000001A#32 = .illegal .tupleWidth := by decide
/-- EN6, EN7. -/
theorem test_decode_reserved_bits :
    decode 0x00000040#32 = .illegal .reservedBits ∧ decode 0x80000006#32 = .illegal .reservedBits := by decide
theorem test_decodeTableWord : decodeTableWord 32 0x2A = some (.combinetowide .w32) ∧
    decodeTableWord 32 0xC = some (.reserved 0xC#4 0#2) ∧ decodeTableWord 32 0x0A = none := by decide

/-! ## One step on a small state -/

/-- A command with its operands; port T as reset leaves it. -/
def cmd (word : CmdWord) (a : Word64 := 0) (p : Word32 := 0) (str : List Chr := []) (ri : Word32 := 0) : Command :=
  { Command.atReset with cmd := word, a := a, p := p, s := str, ri := ri }

/-- The state right after reset with one command waiting. -/
def waiting (c : Command) : State := { State.reset with pending := [.command c] }

/-- The response after one step. -/
def respOf (c : Command) : Option Response :=
  match step (waiting c) with
  | .next t => t.outputs
  | .fault _ => none
  | .refused _ => none

/-- BF3, BF1. -/
theorem test_bitat_top : respOf (cmd 0x10#32 0xBB5C#64 15#32) = some (.ok (.bit 1#1)) := by decide
theorem test_bitat_zero : respOf (cmd 0x10#32 0xBB5C#64 0#32) = some (.ok (.bit 0#1)) := by decide
/-- BF9, BF8. -/
theorem test_setbitat_top : respOf (cmd 0x31#32 0#64 63#32) = some (.ok (.word .w64 0x8000000000000000#64)) := by decide
theorem test_setbitat_already : respOf (cmd 0x01#32 8#64 3#32) = some (.ok (.word .w8 8#8)) := by decide
/-- BF11, BF13. -/
theorem test_unsetbitat : respOf (cmd 0x12#32 0xBB5C#64 2#32) = some (.ok (.word .w16 0xBB58#16)) := by decide
theorem test_unsetbitat_top : respOf (cmd 0x22#32 0xFFFFFFFF#64 31#32) = some (.ok (.word .w32 0x7FFFFFFF#32)) := by decide
/-- BF15, BF17. -/
theorem test_togglebitat_clears : respOf (cmd 0x03#32 0xFF#64 7#32) = some (.ok (.word .w8 0x7F#8)) := by decide
theorem test_togglebitat_sets : respOf (cmd 0x33#32 1#64 63#32) = some (.ok (.word .w64 0x8000000000000001#64)) := by decide
/-- BF20, BF22. -/
theorem test_asbool_not_bit0 : respOf (cmd 0x04#32 2#64) = some (.ok (.bool true)) := by decide
theorem test_asbool_ignores_upper : respOf (cmd 0x14#32 0x10000#64) = some (.ok (.bool false)) := by decide
/-- BF23, BF26. -/
theorem test_ispoweroftwo_zero : respOf (cmd 0x05#32 0#64) = some (.ok (.bool false)) := by decide
theorem test_ispoweroftwo_top : respOf (cmd 0x35#32 0x8000000000000000#64) = some (.ok (.bool true)) := by decide
/-- PC3, PC9. -/
theorem test_popcount_ignores_upper : respOf (cmd 0x06#32 0x1FF#64) = some (.ok (.count 8)) := by decide
theorem test_popcount_w64 : respOf (cmd 0x36#32 0x0123456789ABCDEF#64) = some (.ok (.count 32)) := by decide
/-- SC3, S1a. -/
theorem test_bitstring_first : respOf (cmd 0x07#32 0x80#64) = some (.ok (.str "10000000".toList)) := by decide
theorem test_bitstring_source :
    respOf (cmd 0x17#32 47964#64) = some (.ok (.str "1011101101011100".toList)) := by decide
/-- SC8, SC10. -/
theorem test_frombitstring_lenient :
    respOf (cmd 0x08#32 0 0 "1x1y1z1?".toList) = some (.ok (.word .w8 0xAA#8)) := by decide
theorem test_frombitstring_short :
    respOf (cmd 0x08#32 0 0 "111111111".toList 2#32) = some .indexOutOfRange := by decide
/-- SC18, SC15. -/
theorem test_hexstring_inner_zeros : respOf (cmd 0x19#32 0x0100#64) = some (.ok (.str "100".toList)) := by decide
theorem test_hexstring_zero : respOf (cmd 0x09#32 0#64) = some (.ok (.str "0".toList)) := by decide
/-- TC1, TC4. -/
theorem test_combinetowide_w32 :
    respOf { cmd 0x2A#32 with t := #v[0xDE, 0xAD, 0xBE, 0xEF, 0x11, 0x11, 0x11, 0x11] } =
      some (.ok (.word .w32 0xDEADBEEF#32)) := by decide
theorem test_combinetowide_w64 :
    respOf { cmd 0x3A#32 with t := #v[0x01, 0x23, 0x45, 0x67, 0x89, 0xAB, 0xCD, 0xEF] } =
      some (.ok (.word .w64 0x0123456789ABCDEF#64)) := by decide
/-- TC6, TC9. -/
theorem test_splitintobytes_w32 :
    respOf (cmd 0x2B#32 0x12345678#64) = some (.ok (.bytes .n4 #v[0x12, 0x34, 0x56, 0x78])) := by decide
theorem test_splitintobytes_w64 :
    respOf (cmd 0x3B#32 1#64) = some (.ok (.bytes .n8 #v[0, 0, 0, 0, 0, 0, 0, 1])) := by decide
/-- EN2, EN5. -/
theorem test_reserved_op : respOf (cmd 0x0F#32) = some .illegalCommand := by decide
theorem test_reserved_tuple_width : respOf (cmd 0x1A#32) = some .illegalCommand := by decide
/-- EN8: the word is judged before the operands. -/
theorem test_priority : respOf (cmd 0x80000008#32) = some .illegalCommand := by decide
/-- BF6: a negative pos draws, with STATUS OK. -/
theorem test_misuse_is_ok : (respOf (cmd 0x20#32 1#64 0xFFFFFFFF#32)).map Response.status = some 0#2 := by decide

/-! ## The assembler's text -/

/-- R76, R81: the text of a line, its pseudo-form and a comment. -/
theorem test_parse_bitat :
    parseLine "bitat.w16 0xBB5C, -3 ; text".toList = .ok (some (.op (.bitat .w16) [.num 0xBB5C, .num (-3)])) := by rfl
theorem test_parse_nested :
    parseLine "combinetowide.w64 ((0,0,0,0),(0,0,0,0b1))".toList =
      .ok (some (.op (.combinetowide .w64) [.nested [0, 0, 0, 0] [0, 0, 0, 1]])) := by rfl
theorem test_parse_reference :
    parseLine "frombitstring.w16 %1".toList = .ok (some (.op (.frombitstring .w16) [.ref 1])) := by rfl
theorem test_parse_word : parseLine ".word 0x0000001A".toList = .ok (some (.word 0x1A)) := by rfl

/-- 92_eei_decisions.md D25: the command in flight and the one behind it get no response; the ports hold nothing. -/
theorem test_cut_by_reset :
    let s : State := { waiting (cmd 0x06#32 0xFF#64) with trace := [.illegalCommand], outputs := some .illegalCommand }
    (match step s.cutByReset with
      | .next t => (t.trace, t.outputs, t.resetAsserted, t.pending)
      | .fault _ => ([], none, false, [])
      | .refused _ => ([], none, false, [])) = ([.illegalCommand], none, true, []) := by decide

/-! ## Witnesses -/

/-- A state with the operands of a command on its ports. -/
def at_ (c : Command) : State := { State.reset with ports := c }

/-- The model-only policy of R100. -/
def strict (s : State) : State := { s with params := { s.params with oobPosPolicy := .fault } }

/-- pos = W-1, the last position in range. -/
def top : Command := cmd 0x00#32 0x80#64 7#32

/-- pos = W, the first position out of range. -/
def beyond : Command := cmd 0x00#32 0x80#64 8#32

theorem witness_StepRunsDecoded_instr :
    (waiting top).pending = [.command top] ∧ (waiting top).resetAsserted = false ∧
      decode top.cmd = .instr (.bitat .w8) := by decide
theorem witness_StepRunsDecoded_illegal : decode (cmd 0x40#32).cmd = .illegal .reservedBits := by decide
theorem witness_StepRunsDecoded_reset :
    ({ waiting top with resetAsserted := true } : State).resetAsserted = true := by decide
theorem witness_StepRunsDecoded_idle : State.reset.pending = [] := by decide
theorem witness_ResetSilences_assert :
    ({ State.reset with pending := [.assertReset] } : State).pending = [.assertReset] := by decide
theorem witness_ResetSilences_release :
    ({ State.reset with pending := [.releaseReset] } : State).pending = [.releaseReset] := by decide
theorem witness_ResetSilences_command :
    let s : State := { waiting top with resetAsserted := true }
    s.pending = [.command top] ∧ s.resetAsserted = true := by decide
theorem witness_ResetSilences_cutOff :
    ({ State.reset with pending := [.cutOff top] } : State).pending = [.cutOff top] := by decide
theorem witness_CutCommandsGetNoResponse :
    ({ State.reset with pending := [.command top, .command beyond] } : State).pending =
      [top, beyond].map HostInput.command := by decide
/-- For BitatAnswers, SetbitatAnswers, UnsetbitatAnswers and TogglebitatAnswers: each clause at a boundary of W = 8. -/
theorem witness_bit_command_in_range :
    0 ≤ (at_ top).ports.p.toInt ∧ (at_ top).ports.p.toInt < Width.w8.bits := by decide
theorem witness_bit_command_lowest : 0 ≤ (at_ (cmd 0#32)).ports.p.toInt ∧
    (at_ (cmd 0#32)).ports.p.toInt < Width.w8.bits := by decide
theorem witness_bit_command_draw :
    ¬ (0 ≤ (at_ beyond).ports.p.toInt ∧ (at_ beyond).ports.p.toInt < Width.w8.bits) ∧
      (at_ beyond).params.oobPosPolicy = .draw := by decide
theorem witness_bit_command_fault :
    ¬ (0 ≤ (strict (at_ beyond)).ports.p.toInt ∧ (strict (at_ beyond)).ports.p.toInt < Width.w8.bits) ∧
      (strict (at_ beyond)).params.oobPosPolicy = .fault := by decide
theorem witness_IspoweroftwoAnswers : ∃ k < Width.w8.bits, (at_ top).ports.valueNat .w8 = 2 ^ k := ⟨7, by decide⟩
theorem witness_BitstringAnswers : 7 < Width.w8.bits := by decide
theorem witness_FrombitstringAnswers_error :
    let s := at_ (cmd 0x08#32 0 0 "111111111".toList 2#32)
    s.ports.ri.toInt < 0 ∨ s.ports.ri.toInt + Width.w8.bits > s.ports.s.length := by decide
theorem witness_FrombitstringAnswers_negative :
    let s := at_ (cmd 0x08#32 0 0 "11111111".toList 0xFFFFFFFF#32)
    s.ports.ri.toInt < 0 ∨ s.ports.ri.toInt + Width.w8.bits > s.ports.s.length := by decide
theorem witness_FrombitstringAnswers_ok :
    let s := at_ (cmd 0x08#32 0 0 "111111111".toList 1#32)
    ¬ (s.ports.ri.toInt < 0 ∨ s.ports.ri.toInt + Width.w8.bits > s.ports.s.length) := by decide
theorem witness_HexstringAnswers_zero : (at_ (cmd 0x09#32 0x100#64)).ports.valueNat .w8 = 0 := by decide
theorem witness_HexstringAnswers_nonzero : (at_ (cmd 0x09#32 0xFF#64)).ports.valueNat .w8 ≠ 0 := by decide
theorem witness_SplitintobytesAnswers : 7 < Arity.n8.count := by decide
theorem witness_ReservedAnswersIllegal : 12 ≤ (12#4).toNat := by decide
theorem witness_MisuseIsNotAnError :
    (at_ beyond).ports.misusesPosOf (.bitat .w8) = true ∧ (at_ beyond).params.oobPosPolicy = .draw := by decide
theorem witness_FrombitstringLenient :
    let s := at_ (cmd 0x08#32 0 0 "11111111".toList)
    0 ≤ s.ports.ri.toInt ∧ s.ports.ri.toInt + Width.w8.bits ≤ s.ports.s.length := by decide
/-- The clause of FrombitstringLenient about one character. -/
theorem witness_FrombitstringLenient_char :
    let s := at_ (cmd 0x08#32 0 0 "1111111?".toList)
    7 < Width.w8.bits ∧ s.ports.s[s.ports.ri.toInt.toNat + 7]? ≠ some '1' := by decide
theorem witness_IndexOutOfRangeExactly : ∃ t, exec (.frombitstring .w8) (at_ (cmd 0x08#32)) = .next t := ⟨_, rfl⟩
theorem witness_ErrorsHaveNoEffect :
    (waiting (cmd 0x08#32)).pending = [.command (cmd 0x08#32)] ∧ (waiting (cmd 0x08#32)).resetAsserted = false ∧
      (∃ t, step (waiting (cmd 0x08#32)) = .next t ∧ t.outputs = some .indexOutOfRange) ∧
      Response.indexOutOfRange.status ≠ 0#2 := ⟨rfl, rfl, ⟨_, rfl, rfl⟩, by decide⟩
theorem witness_IllegalCommandExactly_illegal :
    (waiting (cmd 0x1B#32)).pending = [.command (cmd 0x1B#32)] ∧ (waiting (cmd 0x1B#32)).resetAsserted = false ∧
      ((0x1B#32).toNat % 16 = 11 ∧ (0x1B#32).toNat / 16 % 4 < 2) := by decide
theorem witness_IllegalCommandExactly_legal :
    let n := (0x3B#32).toNat
    ¬ (n / 64 ≠ 0 ∨ 12 ≤ n % 16 ∨ ((n % 16 = 10 ∨ n % 16 = 11) ∧ n / 16 % 4 < 2)) ∧
      ∃ t, step (waiting (cmd 0x3B#32)) = .next t := ⟨by decide, _, rfl⟩
/-- A reserved word before a command that draws nothing. -/
theorem witness_CommandAfterError :
    let s : State := { State.reset with pending := [.command (cmd 0x0C#32), .command top] }
    s.resetAsserted = false ∧ (∃ t, step s = .next t ∧ t.outputs = some .illegalCommand) ∧
      Response.illegalCommand.status ≠ 0#2 ∧ top.misusesPos = false := ⟨rfl, ⟨_, rfl, rfl⟩, by decide, by decide⟩
/-- The same before a command whose pos is out of range. -/
theorem witness_CommandAfterError_draw :
    let s : State := { State.reset with pending := [.command (cmd 0x0C#32), .command beyond] }
    s.resetAsserted = false ∧ s.params.oobPosPolicy = .draw ∧
      (∃ t, step s = .next t ∧ t.outputs = some .illegalCommand) ∧ beyond.misusesPos = true :=
  ⟨rfl, rfl, ⟨_, rfl, rfl⟩, by decide⟩
theorem witness_ExecFrame : ∃ t, exec (.bitat .w8) (at_ top) = .next t := ⟨_, rfl⟩
theorem witness_StepNeverStops_draw : State.reset.params.oobPosPolicy = .draw := rfl
theorem witness_StepNeverStops_fault : step (strict (waiting beyond)) = .fault .posMisuse := rfl
/-- For ResponseOfTheCommandAlone and OrderDoesNotMatter. -/
theorem witness_no_misuse :
    (waiting top).pending = [.command top] ∧ (waiting top).resetAsserted = false ∧ top.misusesPos = false ∧
      (cmd 0x08#32).misusesPos = false := by decide
theorem witness_ResponseOfTheCommandAlone_draw :
    (waiting beyond).pending = [.command beyond] ∧ beyond.misusesPos = true ∧
      (waiting beyond).params.oobPosPolicy = .draw := by decide
theorem witness_EveryCommandAnswered :
    (waiting beyond).params.oobPosPolicy = .draw ∧ served false (waiting beyond).pending = [beyond] ∧
      beyond.misusesPos = true := by decide
theorem witness_UnreadPortsIgnored :
    (∀ o ∈ (Instr.bitat .w8).reads, o.same top { top with ri := 1#32 }) ∧
      ∀ o ∈ (Instr.bitat .w8).reads, o.same beyond { beyond with ri := 1#32 } := by
  constructor <;> intro o ho <;>
    simp only [Instr.reads, List.mem_cons, List.not_mem_nil, or_false] at ho <;> rcases ho with rfl | rfl <;> rfl
/-- Each clause of UnreadPortsIgnored, at pos = W-1 and pos = W. -/
theorem witness_UnreadPortsIgnored_clauses :
    top.misusesPosOf (.bitat .w8) = false ∧ beyond.misusesPosOf (.bitat .w8) = true ∧
      (at_ beyond).params.oobPosPolicy = .draw ∧ (strict (at_ beyond)).params.oobPosPolicy = .fault := by decide
theorem witness_ResultKindAndPort :
    ∃ t r, exec (.popcount .w8) (at_ top) = .next t ∧ t.outputs = some (.ok r) := ⟨_, _, rfl, rfl⟩
theorem witness_OneResultPort : Response.indexOutOfRange.status ≠ 0#2 := by decide
theorem witness_reset_inv : State.reset.Inv :=
  { bounded := by simp [State.reset]
    outputs := .inl rfl
    silent := fun _ => rfl
    fits := by simp [State.reset] }
theorem witness_StepKeepsInvariant : State.reset.Inv ∧ ∃ t, step State.reset = .next t := ⟨witness_reset_inv, _, rfl⟩
theorem witness_IssueKeepsStrCap_refused :
    let s : State := { State.reset with params := { State.reset.params with strCap := some 2 } }
    s.issue (cmd 0x08#32 0 0 "111".toList) = none := by decide
theorem witness_IssueKeepsStrCap_issued : ∃ t, State.reset.issue top = some t := ⟨_, rfl⟩
theorem witness_DecodeEncode : (Instr.splitintobytes .w32).wellFormed = true := by decide
theorem witness_EncodeDecode : decode 0x3B#32 = .instr (.splitintobytes .w64) := by decide
theorem witness_MatchMaskRows_table : (Instr.splitintobytes .w64).wellFormed = true := by decide
theorem witness_MatchMaskRows :
    decode 0x2A#32 = .instr (.combinetowide .w32) ∧ decode 0x0A#32 = .illegal .tupleWidth := by decide
theorem witness_WidthCodes : 11#4 = 10#4 ∨ 11#4 = 11#4 := by decide
theorem witness_FortyFourCommands : isIllegalWord 0x3B#32 = false := by decide
theorem witness_BitFieldLaws : PosInRange .w8 top.pos ∧ PosInRange .w8 (0#32).toInt ∧ (0#32).toInt ≠ top.pos := by
  decide
theorem witness_BinaryRoundTrip :
    let d := cmd 0 0 0 ['1', '0', '0', '0', '0', '0', '0', '1']
    d.s.length = Width.w8.bits ∧ (∀ ch ∈ d.s, ch = '0' ∨ ch = '1') ∧ d.ri = 0 :=
  ⟨rfl, by simp [cmd], rfl⟩
theorem witness_TupleRoundTrip : (cmd 0).tuple .n4 = (#v[0, 0, 0, 0] : Vector Byte 4) := rfl
theorem witness_NestedTuple :
    (cmd 0).t[0] = (cmd 0).t[4] ∧ (cmd 0).t[1] = (cmd 0).t[5] ∧ (cmd 0).t[2] = (cmd 0).t[6] ∧
      (cmd 0).t[3] = (cmd 0).t[7] := by decide
/-- For AssembledWord and AssembledIsLegal. -/
theorem witness_assembles :
    assemble [] Command.atReset (.op (.bitat .w8) [.num 0x80, .num 7]) = .ok top ∧
      (waiting top).pending = [.command top] ∧ (waiting top).params.oobPosPolicy = .draw := ⟨rfl, rfl, rfl⟩
theorem witness_AssemblerRefusals_value :
    (Instr.asbool .w8).wellFormed = true ∧ (Instr.asbool .w8).reads.head? = some (.value .w8) ∧
      (2 : Int) ^ Width.w8.bits ≤ 256 := by decide
theorem witness_AssemblerRefusals_pos :
    (Instr.bitat .w8).reads = [.value .w8, .pos] ∧ (0 : Int) ≤ 255 ∧ (255 : Int) < 2 ^ Width.w8.bits ∧
      (2 : Int) ^ 31 ≤ 2147483648 := by decide
theorem witness_AssemblerRefusals_readIndex : (-2147483649 : Int) < -(2 ^ 31) := by decide
theorem witness_AssemblerRefusals_arity : ([1, 2, 3] : List Int).length ≠ Arity.n4.count := by decide
theorem witness_AssemblerRefusals_byte :
    ([1, 2, 3, 256] : List Int).length = Arity.n4.count ∧ ∃ b ∈ ([1, 2, 3, 256] : List Int), b < 0 ∨ 256 ≤ b := by
  decide
theorem witness_AssemblerRefusals_nested_arity : ¬ (Arity.n4 = .n8 ∧ ([1, 2, 3, 4] : List Int).length = 4 ∧
    ([5, 6, 7, 8] : List Int).length = 4) := by decide
theorem witness_AssemblerRefusals_nested_byte :
    ∃ b ∈ ([1, 2, 3, 4] ++ [5, 6, 7, 256] : List Int), b < 0 ∨ 256 ≤ b := by decide
theorem witness_AssemblerRefusals_width : Width.w16 = .w8 ∨ Width.w16 = .w16 := by decide
theorem witness_ResultReferences_bad :
    (1 = 0 ∨ ∀ r, [Response.indexOutOfRange][1 - 1]? ≠ some (.ok r)) ∧
      .ref 1 ∈ [AsmOperand.num 3, .ref 1] ∧ (Instr.bitat .w8).isCommand = true ∧
      (Instr.bitat .w8).wellFormed = true ∧ (Instr.bitat .w8).reads = [.value .w8, .pos] ∧
      ∃ c, asmOperand [.indexOutOfRange] Command.atReset (.value .w8) (.num 3) = .ok c :=
  ⟨.inr (by simp), by decide, rfl, rfl, rfl, _, rfl⟩
theorem witness_ResultReferences_ok :
    (Instr.asbool .w8).isCommand = true ∧ (Instr.asbool .w8).wellFormed = true ∧
      (Instr.asbool .w8).reads = [.value .w8] ∧ (1 : Nat) ≠ 0 ∧
      [Response.ok (.count 8)][1 - 1]? = some (.ok (.count 8)) ∧ (Result.count 8).rPort = some 8#64 := by decide
theorem witness_ReferenceOperands_scalar :
    (Instr.bitat .w8).isCommand = true ∧ (Instr.bitat .w8).reads = [.value .w8, .pos] ∧
      (Result.word .w32 0x7FFFFFFF#32).rPort = some 0x7FFFFFFF#64 ∧ (0x7FFFFFFF#64).toNat < 2 ^ 31 ∧
      (0 : Int) ≤ 255 ∧ (255 : Int) < 2 ^ Width.w8.bits ∧ -(2 ^ 31 : Int) ≤ -2147483648 := by decide
theorem witness_ReferenceOperands_string : (Result.str ['1']).osPort = some ['1'] := rfl
theorem witness_ReferenceOperands_tuple : Arity.n4.count ≤ 4 ∧ 4 < 8 := by decide

end Sys2Proof.Tests
end

/-! # The state and what every step keeps (10_state.md)

One inversion of `exec` with the response it gives, the response of a command served from any state, and one lemma per
state operation that keeps `State.Inv`. -/

namespace Sys2Proof.Machine

open Sys2Proof.Config

/-! ## What an instruction answers -/

/-- `exec_next_cases` with the response named: R26's Exec, or one that R100 allows. -/
theorem exec_next_response {i : Instr} {s t : State} (h : exec i s = .next t) :
    (s.ports.misusesPosOf i = false ∧ t = s.respond (pureResponse i s.ports)) ∨
    (s.ports.misusesPosOf i = true ∧ ∃ r, mayDraw i r ∧ t = s.drew.respond r) := by
  obtain ⟨hm, _⟩ | ⟨hm, hp, _⟩ := exec_next_cases h
  · rw [exec_eq i s hm] at h
    exact .inl ⟨hm, (Host.Outcome.next.inj h).symm⟩
  · obtain ⟨r, hr, hd⟩ := exec_misuse_mayDraw i s hm hp
    rw [hr] at h
    exact .inr ⟨hm, r, hd, (Host.Outcome.next.inj h).symm⟩

/-- Only a word that decodes to an instruction misuses pos. -/
theorem misusesPos_eq_true_iff (c : Command) :
    c.misusesPos = true ↔ ∃ i, decode c.cmd = .instr i ∧ c.misusesPosOf i = true := by
  cases hd : decode c.cmd <;> simp [Command.misusesPos, hd]

section ServeCommand
variable {s : State} {c : Command} {rest : List HostInput}

/-- The step that serves a command which draws nothing. -/
theorem step_command (hp : s.pending = .command c :: rest) (hr : s.resetAsserted = false)
    (hm : c.misusesPos = false) : step s = .next ((s.take c rest).respond (servedResponse c)) :=
  (step_serve hp hr).trans (serve_eq (s.take c rest) hm)

/-- The step that serves a command whose pos R100 leaves open. -/
theorem step_command_draw (hp : s.pending = .command c :: rest) (hr : s.resetAsserted = false)
    (hm : c.misusesPos = true) (hd : s.params.oobPosPolicy = .draw) :
    ∃ i r, decode c.cmd = .instr i ∧ mayDraw i r ∧ step s = .next ((s.take c rest).drew.respond r) := by
  obtain ⟨i, hi, hmi⟩ := (misusesPos_eq_true_iff c).1 hm
  obtain ⟨r, he, hr'⟩ := exec_misuse_mayDraw i (s.take c rest) hmi hd
  exact ⟨i, r, hi, hr', (step_serve hp hr).trans ((serve_instr (s := s.take c rest) hi).trans he)⟩

end ServeCommand

/-- Two steps that serve two commands which draw nothing. -/
theorem run_two_commands {s : State} {c d : Command} {rest : List HostInput}
    (hp : s.pending = .command c :: .command d :: rest) (hr : s.resetAsserted = false)
    (hc : c.misusesPos = false) (hd : d.misusesPos = false) :
    Host.Core.run Sys2Proof.core 2 s =
      .next ((((s.take c (.command d :: rest)).respond (servedResponse c)).take d rest).respond
        (servedResponse d)) := by
  exact (run_succ (step_command hp hr hc)).trans (run_succ (step_command rfl hr hd))

/-! ## Every response is bounded (R28, R149) -/

theorem bounded_str {l : List Chr} (hpos : 1 ≤ l.length) (hle : l.length ≤ 64)
    (hd : ∀ ch ∈ l, digits.contains ch = true) : (Result.str l).bounded = true := by
  simp only [Result.bounded, Bool.and_eq_true, decide_eq_true_eq, List.all_eq_true]
  exact ⟨⟨hpos, hle⟩, hd⟩

theorem bitString_bounded {n : Nat} (v : BitVec n) (hpos : 0 < n) (hle : n ≤ 64) :
    (Result.str (bitString v)).bounded = true := by
  refine bounded_str (by simpa using Nat.succ_le_of_lt hpos) (by simpa using hle) fun ch hch => ?_
  obtain ⟨k, _, rfl⟩ := List.mem_map.1 hch
  split <;> decide

theorem digits_contains_digit : ∀ d < 16, digits.contains (digit d) = true := by decide

/-- R154's digits: at most one per bit, and at least one, because the value they spell is not 0. -/
theorem hexString_bounded {n : Nat} (v : BitVec n) (hle : n ≤ 64) : (Result.str (hexString v)).bounded = true := by
  by_cases h0 : v = 0#n
  · rw [hexString, if_pos h0]
    decide
  have hfuel : v.toNat < 16 ^ n := v.isLt.trans_le (Nat.pow_le_pow_left (by decide) n)
  obtain ⟨ds, he, hlt, hv, -, hlen⟩ := hexLoop_spec n v.toNat [] hfuel
  have hne : ds ≠ [] := by
    rintro rfl
    exact h0 (BitVec.eq_of_toNat_eq hv.symm)
  rw [hexString, if_neg h0, he, List.append_nil]
  refine bounded_str ?_ ?_ fun ch hch => ?_
  · simpa [Nat.one_le_iff_ne_zero] using hne
  · simpa using hlen.trans hle
  · obtain ⟨d, hd, rfl⟩ := List.mem_map.1 hch
    exact digits_contains_digit d (hlt d hd)

theorem pureResponse_bounded (i : Instr) (c : Command) : (pureResponse i c).bounded = true := by
  cases i with
  | bitat w => rfl
  | setbitat w => rfl
  | unsetbitat w => rfl
  | togglebitat w => rfl
  | asbool w => rfl
  | ispoweroftwo w => rfl
  | popcount w => exact decide_eq_true ((popCount_le _).trans (width_bits_le w))
  | bitstring w => exact bitString_bounded _ (width_bits_pos w) (width_bits_le w)
  | frombitstring w =>
    rw [pureResponse]
    split <;> rfl
  | hexstring w => exact hexString_bounded _ (width_bits_le w)
  | combinetowide w => cases w <;> rfl
  | splitintobytes w => cases w <;> rfl
  | reserved op wc => rfl

/-- What R100 allows is a bit or a word. -/
theorem mayDraw_bounded {i : Instr} {r : Response} (h : mayDraw i r) : r.bounded = true := by
  cases i with
  | bitat w => obtain ⟨b, rfl⟩ := h; rfl
  | setbitat w => obtain ⟨v, rfl⟩ := h; rfl
  | unsetbitat w => obtain ⟨v, rfl⟩ := h; rfl
  | togglebitat w => obtain ⟨v, rfl⟩ := h; rfl
  | _ => exact h.elim

/-! ## The invariant, one lemma per state operation -/

namespace State.Inv
variable {s t : State} {r : Response} {c : Command} {x : HostInput} {rest : List HostInput}

/-- The inputs behind the one taken still fit their ports. -/
theorem fits_rest (h : s.Inv) (hp : s.pending = x :: rest) :
    ∀ y ∈ rest, HostInput.fits s.params.strCap y = true :=
  fun y hy => h.fits y (hp ▸ List.mem_cons_of_mem x hy)

/-- The last response given stands on the ports; reset silences them (R231), so it must not be asserted. -/
theorem respond (h : s.Inv) (hr : s.resetAsserted = false) (hb : r.bounded = true) : (s.respond r).Inv where
  bounded q hq := by
    rcases List.mem_append.1 hq with hq | hq
    · exact h.bounded q hq
    · rwa [List.mem_singleton.1 hq]
  outputs := .inr (by simp)
  silent ha := by simp [hr] at ha
  fits := h.fits

theorem drew (h : s.Inv) : s.drew.Inv := ⟨h.bounded, h.outputs, h.silent, h.fits⟩

theorem take (h : s.Inv) (hp : s.pending = x :: rest) : (s.take c rest).Inv :=
  ⟨h.bounded, h.outputs, h.silent, h.fits_rest hp⟩

theorem assertReset (h : s.Inv) (hp : s.pending = x :: rest) : (s.assertReset rest).Inv :=
  ⟨h.bounded, .inl rfl, fun _ => rfl, h.fits_rest hp⟩

theorem cutOff (h : s.Inv) (hp : s.pending = x :: rest) : (s.cutOff c rest).Inv :=
  ⟨h.bounded, .inl rfl, fun _ => rfl, h.fits_rest hp⟩

theorem releaseReset (h : s.Inv) (hp : s.pending = x :: rest) : (s.releaseReset rest).Inv :=
  ⟨h.bounded, h.outputs, fun ha => by simp at ha, h.fits_rest hp⟩

theorem exec_next {i : Instr} (h : s.Inv) (hr : s.resetAsserted = false) (he : exec i s = .next t) : t.Inv := by
  obtain ⟨_, rfl⟩ | ⟨_, r, hd, rfl⟩ := exec_next_response he
  · exact h.respond hr (pureResponse_bounded i s.ports)
  · exact h.drew.respond hr (mayDraw_bounded hd)

theorem serve_next (h : s.Inv) (hr : s.resetAsserted = false) (hs : serve s = .next t) : t.Inv := by
  cases hd : decode s.ports.cmd with
  | instr i =>
    rw [serve_instr hd] at hs
    exact h.exec_next hr hs
  | illegal why =>
    rw [serve_illegal hd] at hs
    cases hs
    exact h.respond hr rfl

theorem step_next (h : s.Inv) (hs : step s = .next t) : t.Inv := by
  cases hp : s.pending with
  | nil =>
    rw [step_idle hp] at hs
    cases hs
    exact h
  | cons x rest =>
    cases x with
    | assertReset =>
      rw [step_assertReset hp] at hs
      cases hs
      exact h.assertReset hp
    | cutOff c =>
      rw [step_cutOff hp] at hs
      cases hs
      exact h.cutOff hp
    | releaseReset =>
      rw [step_releaseReset hp] at hs
      cases hs
      exact h.releaseReset hp
    | command c =>
      cases hr : s.resetAsserted with
      | true =>
        rw [step_inReset hp hr] at hs
        cases hs
        exact h.take hp
      | false =>
        rw [step_serve hp hr] at hs
        exact (h.take hp).serve_next hr hs

theorem reset : State.reset.Inv where
  bounded := by simp [State.reset]
  outputs := .inl rfl
  silent := fun _ => rfl
  fits := by simp [State.reset]

end State.Inv

/-! ## The result ports (R28, R70) -/

/-- A tuple result has at least four bytes, whatever its arity. -/
theorem otPort_bytes_isSome (n : Arity) (t : Vector Byte n.count) {k : Nat} (hk : k < 4) :
    ((Result.bytes n t).otPort k).isSome := by
  have hn : k < n.count := by cases n <;> simp <;> omega
  simp [Result.otPort, hn]

/-- R206: an error has no result. -/
theorem result?_eq_none {r : Response} (h : r.status ≠ 0#2) : r.result? = none := by
  cases r with
  | ok r => exact absurd rfl h
  | indexOutOfRange => rfl
  | illegalCommand => rfl

/-! ## The obligations -/

/-- Settles O33: one lemma per state operation a step can be, and every response is bounded. -/
theorem stepKeepsInvariant : Obligations.StepKeepsInvariant := fun _ _ h hs => h.step_next hs

/-- Settles O24, by the two kinds of next state of `exec`. -/
theorem execFrame : Obligations.ExecFrame := by
  intro i s t h
  obtain ⟨hm, rfl⟩ | ⟨hm, r, _, rfl⟩ := exec_next_response h <;> simp [hm]

/-- Settles O26: from every state the step responds with `servedResponse`, or draws. -/
theorem responseOfTheCommandAlone : Obligations.ResponseOfTheCommandAlone := fun _ c _ hp hr =>
  ⟨fun hm => ⟨servedResponse c, respondsFromReset_eq c hm, step_command hp hr hm⟩, step_command_draw hp hr⟩

/-- Settles O27: each command's response is its `servedResponse`, in either order. -/
theorem orderDoesNotMatter : Obligations.OrderDoesNotMatter := by
  intro s c d rest hr hc hd
  refine ⟨servedResponse c, servedResponse d, _, _, run_two_commands rfl hr hc hd, run_two_commands rfl hr hd hc, ?_⟩
  simp

/-- Settles O1. -/
theorem resetHoldsNothing : Obligations.ResetHoldsNothing := ⟨rfl, rfl, rfl, rfl⟩

/-- Settles O31: a result's constructor selects its port. -/
theorem oneResultPort : Obligations.OneResultPort := by
  constructor
  · intro r
    cases r with
    | word w v => exact .inl ⟨rfl, rfl, fun _ => rfl⟩
    | bit b => exact .inl ⟨rfl, rfl, fun _ => rfl⟩
    | bool b => exact .inl ⟨rfl, rfl, fun _ => rfl⟩
    | count n => exact .inl ⟨rfl, rfl, fun _ => rfl⟩
    | str l => exact .inr (.inl ⟨rfl, rfl, fun _ => rfl⟩)
    | bytes n t => exact .inr (.inr ⟨rfl, rfl, fun _ hk => otPort_bytes_isSome n t hk⟩)
  · intro r h
    simp [Response.rPort, Response.osPort, Response.otPort, result?_eq_none h]

/-- Settles O32. -/
theorem resetMeetsInvariant : Obligations.ResetMeetsInvariant := State.Inv.reset

end Sys2Proof.Machine

/-! # The command word and the assembler (30_encoding.md)

The fields of an encoded word and the two directions of the decoder; the operand ports a response depends on and the
kind of a result; and the assembler, one equation for each operand that is put on its port or refused. -/

namespace Sys2Proof

/-! ## The fields of a command word (R61, R62) -/

@[simp] theorem opField_commandWord (op : BitVec 4) (wc : BitVec 2) : opField (commandWord op wc) = op :=
  BitVec.extractLsb'_append_eq_right

@[simp] theorem wcField_commandWord : ∀ (op : BitVec 4) (wc : BitVec 2), wcField (commandWord op wc) = wc := by decide

/-- R75 on a word whose reserved bits are zero. -/
theorem decode_commandWord (op : BitVec 4) (wc : BitVec 2) : decode (commandWord op wc) = decodeOp op wc := by
  rw [decode, if_neg (not_not_intro (Laws.ReservedZero.rsvField_commandWord op wc)), opField_commandWord,
    wcField_commandWord]

/-- R76's CMD = OP | (WC << 4). -/
theorem or_shiftLeft_eq_commandWord :
    ∀ (op : BitVec 4) (wc : BitVec 2), (op.setWidth 32 ||| (wc.setWidth 32 <<< 4)) = commandWord op wc := by decide

/-- The command word as a number. -/
theorem ofNat_eq_commandWord :
    ∀ (op : BitVec 4) (wc : BitVec 2), BitVec.ofNat 32 (op.toNat + 16 * wc.toNat) = commandWord op wc := by decide

@[simp] theorem widthOfCode_codeOfWidth (w : Width) : widthOfCode (codeOfWidth w) = w := by cases w <;> rfl

/-! ## The decoder and the encoder (R63, R75) -/

/-- The row a word decodes to, if it does. -/
def Decoded.instr? : Decoded → Option Instr
  | .instr i => some i
  | .illegal _ => none

/-- R71: an OP of 0xC or more selects the reserved row. -/
theorem decodeOp_reserved : ∀ (op : BitVec 4) (wc : BitVec 2), 12 ≤ op.toNat →
    decodeOp op wc = .instr (.reserved op wc) := by decide

/-- A row that an OP selects at every width code is selected at its own. -/
theorem decode_commandWord_codeOfWidth {op : BitVec 4} {row : Width → Instr}
    (h : ∀ wc, decodeOp op wc = .instr (row (widthOfCode wc))) (w : Width) :
    decode (commandWord op (codeOfWidth w)) = .instr (row w) := by
  rw [decode_commandWord, h, widthOfCode_codeOfWidth]

theorem decode_encode (i : Instr) (h : i.wellFormed = true) : decode (encode i) = .instr i := by
  cases i with
  | bitat w => exact decode_commandWord_codeOfWidth (fun _ => rfl) w
  | setbitat w => exact decode_commandWord_codeOfWidth (fun _ => rfl) w
  | unsetbitat w => exact decode_commandWord_codeOfWidth (fun _ => rfl) w
  | togglebitat w => exact decode_commandWord_codeOfWidth (fun _ => rfl) w
  | asbool w => exact decode_commandWord_codeOfWidth (fun _ => rfl) w
  | ispoweroftwo w => exact decode_commandWord_codeOfWidth (fun _ => rfl) w
  | popcount w => exact decode_commandWord_codeOfWidth (fun _ => rfl) w
  | bitstring w => exact decode_commandWord_codeOfWidth (fun _ => rfl) w
  | frombitstring w => exact decode_commandWord_codeOfWidth (fun _ => rfl) w
  | hexstring w => exact decode_commandWord_codeOfWidth (fun _ => rfl) w
  | combinetowide w | splitintobytes w =>
    cases w with
    | w8 | w16 => cases h
    | w32 | w64 => rfl
  | reserved op wc => exact (decode_commandWord op wc).trans (decodeOp_reserved op wc (of_decide_eq_true h))

/-- Each of the 64 words with RSV = 0 that decodes is the encoding of its row. -/
theorem decodeOp_encodes : ∀ (op : BitVec 4) (wc : BitVec 2),
    (decodeOp op wc).instr?.all (fun i => decide (encode i = commandWord op wc) && i.wellFormed) = true := by decide

theorem encode_of_decode {w : CmdWord} {i : Instr} (h : decode w = .instr i) :
    encode i = w ∧ i.wellFormed = true := by
  by_cases hw : w.toNat < 64
  · obtain ⟨op, wc, rfl⟩ := eq_commandWord w hw
    rw [decode_commandWord] at h
    have key := decodeOp_encodes op wc
    rw [h] at key
    simpa [Decoded.instr?] using key
  · rw [decode_of_rsv hw] at h
    cases h

/-! ## The match and mask table (R63) -/

/-- The rows of R63's table, and of spec/opcode_table.json for the reserved row. -/
def tableRows : List (CmdWord × CmdWord) :=
  [0x0#32, 0x1#32, 0x2#32, 0x3#32, 0x4#32, 0x5#32, 0x6#32, 0x7#32, 0x8#32, 0x9#32].map (·, 0xFFFFFFCF#32) ++
    [(0x2A#32, 0xFFFFFFEF#32), (0x2B#32, 0xFFFFFFEF#32), (0x0C#32, 0xFFFFFFCC#32)]

theorem matchMask_mem_tableRows (i : Instr) : matchMask i ∈ tableRows := by
  cases i <;> simp [matchMask, tableRows]

/-- Every row asks for reserved bits 0. -/
theorem tableRows_fix_reserved : ∀ row ∈ tableRows, rsvField row.1 = 0 ∧ rsvField row.2 = BitVec.allOnes 26 :=
  List.forall_iff_forall_mem.1 (by decide)

theorem rowMatches_of_rsv {row : CmdWord × CmdWord} (hrow : row ∈ tableRows) {w : CmdWord}
    (hw : ¬ w.toNat < 64) : rowMatches row w = false := by
  obtain ⟨hmatch, hmask⟩ := tableRows_fix_reserved row hrow
  refine decide_eq_false fun h => hw ((rsvField_eq_zero_iff w).1 ?_)
  calc rsvField w = rsvField w &&& rsvField row.2 := by rw [hmask, BitVec.and_allOnes]
    _ = rsvField (w &&& row.2) := BitVec.extractLsb'_and.symm
    _ = 0 := by rw [h, hmatch]

/-- Of the words with RSV = 0, a row matches exactly those that decode to it. -/
theorem rowMatches_commandWord : ∀ row ∈ tableRows, ∀ (op : BitVec 4) (wc : BitVec 2),
    rowMatches row (commandWord op wc) = (decodeOp op wc).instr?.any fun i => decide (matchMask i = row) :=
  List.forall_iff_forall_mem.1 (by decide)

/-- A word matches the row of what it decodes to and no other. -/
theorem rowMatches_matchMask (j : Instr) (w : CmdWord) :
    rowMatches (matchMask j) w = (decode w).instr?.any fun i => decide (matchMask i = matchMask j) := by
  by_cases hw : w.toNat < 64
  · obtain ⟨op, wc, rfl⟩ := eq_commandWord w hw
    rw [decode_commandWord]
    exact rowMatches_commandWord _ (matchMask_mem_tableRows j) op wc
  · rw [rowMatches_of_rsv (matchMask_mem_tableRows j) hw, decode_of_rsv hw]
    rfl

end Sys2Proof

namespace Sys2Proof.Machine

open Sys2Proof.Config

/-! ## The ports an instruction reads (R69) -/

section ReadPorts
variable {i : Instr} {c d : Command}

theorem width_of_arity {w : Width} {n : Arity} (h : w.arity? = some n) : w = n.width := by
  cases w <;> cases h <;> rfl

theorem reads_combinetowide (n : Arity) : (Instr.combinetowide n.width).reads = [.tuple n] := by
  simp [Instr.reads]

/-- The rows that read an operand port are the commands of a width they have. -/
theorem reads_ne_nil_iff (i : Instr) : i.reads ≠ [] ↔ i.isCommand = true ∧ i.wellFormed = true := by
  cases i with
  | combinetowide w | splitintobytes w => cases w <;> simp [Instr.reads, Instr.isCommand, Instr.wellFormed]
  | _ => simp [Instr.reads, Instr.isCommand, Instr.wellFormed]

/-- Whether pos is misused depends on the ports read only. -/
theorem misusesPosOf_congr (h : ∀ o ∈ i.reads, o.same c d) : c.misusesPosOf i = d.misusesPosOf i := by
  cases i with
  | bitat w | setbitat w | unsetbitat w | togglebitat w =>
    have hp : c.p = d.p := h .pos (by simp [Instr.reads])
    simp [Command.misusesPosOf, Command.pos, hp]
  | _ => rfl

/-- The response of R26 depends on the ports read only. -/
theorem pureResponse_congr (h : ∀ o ∈ i.reads, o.same c d) : pureResponse i c = pureResponse i d := by
  cases i with
  | bitat w | setbitat w | unsetbitat w | togglebitat w =>
    have hv : c.value w = d.value w := h (.value w) (by simp [Instr.reads])
    have hp : c.p = d.p := h .pos (by simp [Instr.reads])
    simp only [pureResponse, Command.pos, hv, hp]
  | asbool w | ispoweroftwo w | popcount w | bitstring w | hexstring w =>
    have hv : c.value w = d.value w := h (.value w) (by simp [Instr.reads])
    simp only [pureResponse, hv]
  | frombitstring w =>
    have hs : c.s = d.s := h .string (by simp [Instr.reads])
    have hri : c.ri = d.ri := h .readIndex (by simp [Instr.reads])
    simp [pureResponse, Command.string, Command.readIndex, hs, hri]
  | combinetowide w =>
    cases ha : w.arity? with
    | none => simp only [pureResponse, ha]
    | some n =>
      have ht : c.tuple n = d.tuple n := h (.tuple n) (by simp [Instr.reads, ha])
      simp only [pureResponse, ha, ht]
  | splitintobytes w =>
    cases ha : w.arity? with
    | none => simp only [pureResponse, ha]
    | some n =>
      have hv : c.value n.width = d.value n.width := h (.value n.width) (by simp [Instr.reads, ha])
      simp only [pureResponse, ha, hv]
  | reserved op wc => rfl

end ReadPorts

/-! ## The kind of a result (R70) -/

/-- Fuel beyond the number of digits changes nothing. -/
theorem hexLoop_fuel {m fuel x : Nat} (hm : m ≤ fuel) (hx : x < 16 ^ m) (s : List Chr) :
    hexLoop fuel x s = hexLoop m x s := by
  induction m generalizing fuel x s with
  | zero =>
    obtain rfl : x = 0 := by simpa using hx
    cases fuel <;> simp [hexLoop]
  | succ m ih =>
    obtain ⟨fuel, rfl⟩ : ∃ k, fuel = k + 1 := ⟨fuel - 1, by omega⟩
    have hq : x / 16 < 16 ^ m := by
      rw [pow_succ] at hx
      omega
    simp only [hexLoop]
    rw [ih (by omega) hq]

/-- R154 for a value other than zero: base-16 digits that spell it, without leading zeros, at most one for every four
bits. -/
theorem hexString_spec {n m : Nat} (v : BitVec n) (hn : n = 4 * m) (h0 : v ≠ 0#n) :
    ∃ ds : List Nat, hexString v = ds.map digit ∧ (∀ d ∈ ds, d < 16) ∧ hexValue ds = v.toNat ∧ ds.head? ≠ some 0 ∧
      1 ≤ ds.length ∧ ds.length ≤ m := by
  have hv : v.toNat < 16 ^ m := by
    have hpow : 2 ^ n = 16 ^ m := by rw [hn, pow_mul]; rfl
    exact hpow ▸ v.isLt
  obtain ⟨ds, he, hlt, hval, hhead, hlen⟩ := hexLoop_spec m v.toNat [] hv
  refine ⟨ds, ?_, hlt, hval, hhead, List.length_pos_iff.2 ?_, hlen⟩
  · rw [hexString, if_neg h0, hexLoop_fuel (by omega) hv, he, List.append_nil]
  · rintro rfl
    exact h0 (BitVec.eq_of_toNat_eq hval.symm)

theorem hexString_length (w : Width) (v : BitVec w.bits) :
    1 ≤ (hexString v).length ∧ (hexString v).length ≤ w.bits / 4 := by
  by_cases h0 : v = 0#w.bits
  · rw [hexString, if_pos h0]
    cases w <;> decide
  · obtain ⟨ds, he, -, -, -, hpos, hle⟩ := hexString_spec (m := w.bits / 4) v (by cases w <;> rfl) h0
    rw [he, List.length_map]
    exact ⟨hpos, hle⟩

/-- An OK result is the one of R26, or one R100 allows. -/
theorem exec_ok_result {i : Instr} {s t : State} {r : Result} (h : exec i s = .next t)
    (ho : t.outputs = some (.ok r)) : pureResponse i s.ports = .ok r ∨ mayDraw i (.ok r) := by
  obtain ⟨-, rfl⟩ | ⟨-, q, hq, rfl⟩ := exec_next_response h
  · exact .inl (Option.some.inj ho)
  · exact .inr (Option.some.inj ho ▸ hq)

/-- A command of a width it has is never answered with IllegalCommand. -/
theorem pureResponse_ne_illegalCommand {i : Instr} (hc : i.isCommand = true) (hw : i.wellFormed = true)
    (c : Command) : pureResponse i c ≠ .illegalCommand := by
  cases i with
  | frombitstring w =>
    rw [pureResponse]
    split <;> simp
  | combinetowide w | splitintobytes w =>
    obtain ⟨n, hn⟩ := Option.isSome_iff_exists.1 hw
    simp [pureResponse, hn]
  | reserved op wc => cases hc
  | _ => simp [pureResponse]

/-! ## Issuing a command (R67) -/

theorem fits_eq_false_iff (c : Command) (strCap : Option Nat) :
    c.fits strCap = false ↔ ∃ cap, strCap = some cap ∧ cap < c.s.length := by
  cases strCap <;> simp [Command.fits]

theorem issue_eq_none_iff (s : State) (c : Command) : s.issue c = none ↔ c.fits s.params.strCap = false := by
  simp [State.issue]

theorem issue_eq_some_iff {s t : State} {c : Command} :
    s.issue c = some t ↔ c.fits s.params.strCap = true ∧ { s with pending := s.pending ++ [.command c] } = t := by
  simp [State.issue]

/-- The command issued waits behind the others and fits its ports. -/
theorem State.Inv.issue {s t : State} {c : Command} (h : s.Inv) (ht : s.issue c = some t) : t.Inv := by
  obtain ⟨hfit, rfl⟩ := issue_eq_some_iff.1 ht
  refine ⟨h.bounded, h.outputs, h.silent, fun x hx => ?_⟩
  rcases List.mem_append.1 hx with hx | hx
  · exact h.fits x hx
  · rw [List.mem_singleton.1 hx]
    exact hfit

/-! ## One operand (R76, R79) -/

section Operand
variable {rs : List Response} {c c' : Command} {x : AsmOperand}

theorem asmOperand_value (w : Width) :
    asmOperand rs c (.value w) x = (asmValue rs w x).map fun v => { c with a := v } := by
  cases h : asmValue rs w x <;> simp only [asmOperand, h] <;> rfl

theorem asmOperand_pos : asmOperand rs c .pos x = (asmSigned rs x).map fun v => { c with p := v } := by
  cases h : asmSigned rs x <;> simp only [asmOperand, h] <;> rfl

theorem asmOperand_readIndex : asmOperand rs c .readIndex x = (asmSigned rs x).map fun v => { c with ri := v } := by
  cases h : asmSigned rs x <;> simp only [asmOperand, h] <;> rfl

theorem asmOperand_string : asmOperand rs c .string x = (asmString rs x).map fun v => { c with s := v } := by
  cases h : asmString rs x <;> simp only [asmOperand, h] <;> rfl

theorem asmOperand_tuple (n : Arity) : asmOperand rs c (.tuple n) x = (asmTuple rs n x).map c.withTuple := by
  cases h : asmTuple rs n x <;> simp only [asmOperand, h] <;> rfl

theorem asmOperand_value_ok {w : Width} {v : Word64} (h : asmValue rs w x = .ok v) :
    asmOperand rs c (.value w) x = .ok { c with a := v } := by
  rw [asmOperand_value, h]
  rfl

theorem asmOperand_pos_ok {v : Word32} (h : asmSigned rs x = .ok v) :
    asmOperand rs c .pos x = .ok { c with p := v } := by
  rw [asmOperand_pos, h]
  rfl

theorem asmOperand_readIndex_ok {v : Word32} (h : asmSigned rs x = .ok v) :
    asmOperand rs c .readIndex x = .ok { c with ri := v } := by
  rw [asmOperand_readIndex, h]
  rfl

theorem asmOperand_string_ok {v : List Chr} (h : asmString rs x = .ok v) :
    asmOperand rs c .string x = .ok { c with s := v } := by
  rw [asmOperand_string, h]
  rfl

theorem cmd_of_map_ok {α : Type} {y : Except AsmError α} {f : α → Command} (h : y.map f = .ok c')
    (hf : ∀ v, (f v).cmd = c.cmd) : c'.cmd = c.cmd := by
  cases y with
  | error e => cases h
  | ok v => cases h; exact hf v

/-- No operand is put on port CMD. -/
theorem asmOperand_cmd {o : Operand} (h : asmOperand rs c o x = .ok c') : c'.cmd = c.cmd := by
  cases o with
  | value w => exact cmd_of_map_ok ((asmOperand_value w).symm.trans h) fun _ => rfl
  | pos => exact cmd_of_map_ok (asmOperand_pos.symm.trans h) fun _ => rfl
  | readIndex => exact cmd_of_map_ok (asmOperand_readIndex.symm.trans h) fun _ => rfl
  | string => exact cmd_of_map_ok (asmOperand_string.symm.trans h) fun _ => rfl
  | tuple n => exact cmd_of_map_ok ((asmOperand_tuple n).symm.trans h) fun _ => rfl

theorem asmValue_num {w : Width} {n : Int} (h : 0 ≤ n ∧ n < 2 ^ w.bits) :
    asmValue rs w (.num n) = .ok (BitVec.ofInt 64 n) := if_pos h

theorem asmValue_refused {w : Width} {n : Int} (h : n < 0 ∨ 2 ^ w.bits ≤ n) :
    asmValue rs w (.num n) = .error .valueRange :=
  if_neg (by omega)

theorem asmSigned_num {n : Int} (h : -(2 ^ 31) ≤ n ∧ n < 2 ^ 31) :
    asmSigned rs (.num n) = .ok (BitVec.ofInt 32 n) := signed32_ok h

theorem asmSigned_refused {n : Int} (h : n < -(2 ^ 31) ∨ 2 ^ 31 ≤ n) :
    asmSigned rs (.num n) = .error .signedRange :=
  if_neg (by omega)

/-- A byte out of range anywhere refuses the tuple. -/
theorem asmBytes_refused {bs : List Int} (h : ∃ b ∈ bs, b < 0 ∨ 256 ≤ b) : asmBytes bs = .error .byteRange := by
  induction bs with
  | nil => simp at h
  | cons b bs ih =>
    by_cases hb : 0 ≤ b ∧ b < 256
    · have htail : ∃ d ∈ bs, d < 0 ∨ 256 ≤ d := by
        obtain ⟨d, hd, hr⟩ := h
        obtain rfl | hd := List.mem_cons.1 hd
        · omega
        · exact ⟨d, hd, hr⟩
      rw [asmBytes, if_pos hb, ih htail]
      rfl
    · rw [asmBytes, if_neg hb]

end Operand

/-! ## The operands of a line -/

section Line
variable {rs : List Response} {base c c' : Command} {i : Instr} {o o' : Operand} {os : List Operand}
  {x y : AsmOperand} {xs args : List AsmOperand} {e : AsmError}

theorem asmOperands_cons_ok (h : asmOperand rs c o x = .ok c') :
    asmOperands rs c (o :: os) (x :: xs) = asmOperands rs c' os xs := by
  simp only [asmOperands, h]
  rfl

theorem asmOperands_cons_error (h : asmOperand rs c o x = .error e) :
    asmOperands rs c (o :: os) (x :: xs) = .error e := by
  simp only [asmOperands, h]
  rfl

theorem asmOperands_cmd (h : asmOperands rs c os xs = .ok c') : c'.cmd = c.cmd := by
  induction os generalizing c xs with
  | nil =>
    cases xs with
    | nil => cases h; rfl
    | cons x xs => cases h
  | cons o os ih =>
    cases xs with
    | nil => cases h
    | cons x xs =>
      cases ho : asmOperand rs c o x with
      | error e =>
        rw [asmOperands_cons_error ho] at h
        cases h
      | ok d =>
        rw [asmOperands_cons_ok ho] at h
        exact (ih h).trans (asmOperand_cmd ho)

/-- R77 only adds an operand behind those of the line. -/
theorem expandArgs_eq_append (i : Instr) (args : List AsmOperand) : ∃ more, expandArgs i args = args ++ more := by
  unfold expandArgs
  split
  · exact ⟨[.num 0], rfl⟩
  · exact ⟨[], (List.append_nil args).symm⟩

theorem expandArgs_two (i : Instr) (x y : AsmOperand) : expandArgs i [x, y] = [x, y] := by cases i <;> rfl

/-- R77 leaves the instructions of one operand alone. -/
theorem expandArgs_one (h : i.reads = [o]) (x : AsmOperand) : expandArgs i [x] = [x] := by
  cases i with
  | frombitstring w => cases h
  | _ => rfl

theorem assemble_op_ok (h : assemble rs base (.op i args) = .ok c) :
    i.isCommand = true ∧ i.wellFormed = true ∧
      asmOperands rs { base with cmd := encode i } i.reads (expandArgs i args) = .ok c := by
  cases hc : i.isCommand <;> cases hw : i.wellFormed <;> simp_all [assemble]

theorem assemble_cmd (h : assemble rs base (.op i args) = .ok c) : c.cmd = encode i := by
  obtain ⟨-, -, ho⟩ := assemble_op_ok h
  exact asmOperands_cmd ho

/-- What assembles decodes back to its instruction. -/
theorem decode_assemble (h : assemble rs base (.op i args) = .ok c) : decode c.cmd = .instr i := by
  obtain ⟨-, hw, -⟩ := assemble_op_ok h
  rw [assemble_cmd h, decode_encode i hw]

/-- A line assembles as its operands do when its instruction reads any. -/
theorem assemble_reads (h : i.reads = o :: os) :
    assemble rs base (.op i args) = asmOperands rs { base with cmd := encode i } (o :: os) (expandArgs i args) := by
  obtain ⟨hc, hw⟩ := (reads_ne_nil_iff i).1 (by simp [h])
  rw [assemble_op hc hw, h]

/-- A line of one operand assembles as the operand does. -/
theorem assemble_one (h : i.reads = [o]) :
    assemble rs base (.op i [x]) = asmOperand rs { base with cmd := encode i } o x := by
  rw [assemble_reads h, expandArgs_one h]
  cases hx : asmOperand rs { base with cmd := encode i } o x with
  | error e => exact asmOperands_cons_error hx
  | ok c => exact asmOperands_cons_ok hx

theorem assemble_two (h : i.reads = [o, o']) (hx : asmOperand rs { base with cmd := encode i } o x = .ok c) :
    assemble rs base (.op i [x, y]) = asmOperands rs c [o'] [y] := by
  rw [assemble_reads h, expandArgs_two, asmOperands_cons_ok hx]

theorem assemble_two_ok (h : i.reads = [o, o']) (hx : asmOperand rs { base with cmd := encode i } o x = .ok c)
    (hy : asmOperand rs c o' y = .ok c') : assemble rs base (.op i [x, y]) = .ok c' :=
  (assemble_two h hx).trans (asmOperands_cons_ok hy)

/-- The second operand is refused behind a first that is in order. -/
theorem assemble_second_refused (h : i.reads = [o, o'])
    (hx : asmOperand rs { base with cmd := encode i } o x = .ok c) (hy : asmOperand rs c o' y = .error e) :
    assemble rs base (.op i [x, y]) = .error e :=
  (assemble_two h hx).trans (asmOperands_cons_error hy)

theorem assemble_first_refused (h : i.reads = o :: os)
    (hx : asmOperand rs { base with cmd := encode i } o x = .error e) :
    assemble rs base (.op i (x :: args)) = .error e := by
  obtain ⟨more, he⟩ := expandArgs_eq_append i (x :: args)
  rw [assemble_reads h, he]
  exact asmOperands_cons_error hx

theorem assemble_combinetowide (n : Arity) :
    assemble rs base (.op (.combinetowide n.width) [x]) =
      (asmTuple rs n x).map ({ base with cmd := encode (.combinetowide n.width) } : Command).withTuple :=
  (assemble_one (reads_combinetowide n)).trans (asmOperand_tuple n)

/-- A reference to a failed or missing response refuses its line. -/
theorem assemble_ref_bad {k : Nat} (h : refResult rs k = .error .badRef) (hm : .ref k ∈ args) :
    ∃ e, assemble rs base (.op i args) = .error e := by
  by_cases hr : i.reads = []
  · cases ha : assemble rs base (.op i args) with
    | error e => exact ⟨e, rfl⟩
    | ok c =>
      obtain ⟨hc, hw, -⟩ := assemble_op_ok ha
      exact absurd hr ((reads_ne_nil_iff i).2 ⟨hc, hw⟩)
  · obtain ⟨hc, hw⟩ := (reads_ne_nil_iff i).1 hr
    obtain ⟨more, he⟩ := expandArgs_eq_append i args
    rw [assemble_op hc hw, he]
    exact asmOperands_ref_bad h _ (List.mem_append_left more hm) _ _

end Line

/-- The elements of an eight-byte tuple, written out. -/
theorem vector8_eta {α : Type} (t : Vector α 8) : t = #v[t[0], t[1], t[2], t[3], t[4], t[5], t[6], t[7]] := by
  apply Vector.ext
  intro j hj
  interval_cases j <;> rfl

/-! ## The obligations -/

/-- Settles O35, constructor by constructor. -/
theorem decodeEncode : Obligations.DecodeEncode := decode_encode

/-- Settles O29: the response and the misuse depend on the ports read only, and a draw is one R100 allows in either
run. -/
theorem unreadPortsIgnored : Obligations.UnreadPortsIgnored := by
  intro i s c d h
  have hm := (misusesPosOf_congr h).symm
  refine ⟨hm, fun hc => ?_, fun hc hp => ?_, fun hc hp => ?_⟩
  · refine ⟨pureResponse i c, exec_eq i { s with ports := c } hc, ?_⟩
    rw [pureResponse_congr h]
    exact exec_eq i { s with ports := d } (hm.trans hc)
  · obtain ⟨q, hq, hq'⟩ := exec_misuse_mayDraw i { s with ports := c } hc hp
    obtain ⟨r, hr, hr'⟩ := exec_misuse_mayDraw i { s with ports := d } (hm.trans hc) hp
    exact ⟨q, r, hq', hr', hq, hr⟩
  · exact ⟨exec_misuse_fault i { s with ports := c } hc hp,
      exec_misuse_fault i { s with ports := d } (hm.trans hc) hp⟩

/-- Settles O30: the result is the one of R26, or for a bit command one R100 allows. -/
theorem resultKindAndPort : Obligations.ResultKindAndPort := by
  intro i s t r h ho
  have hr := exec_ok_result h ho
  cases i with
  | bitat w | setbitat w | unsetbitat w | togglebitat w =>
    obtain hr | ⟨v, hr⟩ := hr <;> cases hr <;> exact ⟨_, rfl, rfl⟩
  | asbool w | ispoweroftwo w =>
    cases hr.resolve_right id
    exact ⟨_, rfl, rfl⟩
  | popcount w =>
    cases hr.resolve_right id
    exact ⟨_, popCount_le _, rfl, rfl⟩
  | bitstring w =>
    cases hr.resolve_right id
    exact ⟨_, rfl, bitString_length _, rfl⟩
  | frombitstring w =>
    have hr := hr.resolve_right id
    rw [pureResponse] at hr
    split at hr <;> cases hr
    exact ⟨_, rfl, rfl⟩
  | hexstring w =>
    cases hr.resolve_right id
    obtain ⟨hpos, hle⟩ := hexString_length w (s.ports.value w)
    exact ⟨_, rfl, hpos, hle, rfl⟩
  | combinetowide w =>
    have hr := hr.resolve_right id
    rw [pureResponse] at hr
    split at hr <;> cases hr
    next n hn => exact ⟨n, _, width_of_arity hn, rfl, rfl⟩
  | splitintobytes w =>
    have hr := hr.resolve_right id
    rw [pureResponse] at hr
    split at hr <;> cases hr
    next n hn => exact ⟨n, _, width_of_arity hn, rfl, fun _ => rfl, fun _ hk => Vector.getElem?_eq_none hk⟩
  | reserved op wc => cases hr.resolve_right id

/-- Settles O34. -/
theorem issueKeepsStrCap : Obligations.IssueKeepsStrCap := fun s c =>
  ⟨(issue_eq_none_iff s c).trans (fits_eq_false_iff c _),
    fun _ ht => ⟨(issue_eq_some_iff.1 ht).2.symm, fun hs => hs.issue ht⟩⟩

/-- Settles O36: a word that decodes is below 64, and each of those is the encoding of its row. -/
theorem encodeDecode : Obligations.EncodeDecode := fun _ _ => encode_of_decode

/-- Settles O37: the table row by row, and `rowMatches_matchMask` for the words. -/
theorem matchMaskRows : Obligations.MatchMaskRows := by
  refine ⟨fun op w => ?_, fun w => ⟨fun i hd j => ?_, fun why hd j => ?_⟩⟩
  · intro i hi
    have hop : BitVec.ofNat 32 op.val = (BitVec.ofNat 4 op.val).setWidth 32 := by
      apply BitVec.eq_of_toNat_eq
      simp
      omega
    have hword : BitVec.ofNat 32 op.val ||| ((codeOfWidth w).setWidth 32 <<< 4) = encode i := by
      rw [hop, or_shiftLeft_eq_commandWord]
      fin_cases op <;> rfl
    refine ⟨hword ▸ decode_encode i hi, ?_⟩
    fin_cases op <;> rfl
  · rw [rowMatches_matchMask, hd]
    simp [Decoded.instr?, eq_comm]
  · rw [rowMatches_matchMask, hd]
    rfl

/-- Settles O38: the words below 64 are counted, and those above are illegal by their reserved bits. -/
theorem fortyFourCommands : Obligations.FortyFourCommands := by
  refine ⟨by decide, fun w h => ?_⟩
  by_contra hw
  simp [isIllegalWord, decode_of_rsv hw] at h

/-- Settles O49. -/
theorem assembledWord : Obligations.AssembledWord := by
  intro rs base c i args h
  obtain ⟨hc, hw, -⟩ := assemble_op_ok h
  exact ⟨hc, hw, assemble_cmd h, decode_assemble h⟩

/-- Settles O50, one lemma per refusal. -/
theorem assemblerRefusals : Obligations.AssemblerRefusals := by
  intro rs base
  refine ⟨fun i w n args _ hr h => ?_, fun i w v n hr hv h => ?_, fun w s n h => ?_, fun n bs h => ?_,
    fun n bs hl h => ?_, fun n xs ys h => ?_, fun xs ys hx hy h => ?_, fun w args h => ?_⟩
  · obtain ⟨os, hos⟩ := List.head?_eq_some_iff.1 hr
    refine assemble_first_refused hos ?_
    rw [asmOperand_value, asmValue_refused h]
    rfl
  · refine assemble_second_refused hr (asmOperand_value_ok (asmValue_num hv)) ?_
    rw [asmOperand_pos, asmSigned_refused h]
    rfl
  · refine assemble_second_refused rfl (asmOperand_string_ok rfl) ?_
    rw [asmOperand_readIndex, asmSigned_refused h]
    rfl
  · rw [assemble_combinetowide, asmTuple, if_neg h]
    rfl
  · rw [assemble_combinetowide, asmTuple, if_pos hl, asmBytes_refused h]
    rfl
  · rw [assemble_combinetowide, asmTuple, if_neg h]
    rfl
  · refine (assemble_combinetowide .n8).trans ?_
    rw [asmTuple, if_pos ⟨rfl, hx, hy⟩, asmBytes_refused h]
    rfl
  · obtain rfl | rfl := h <;> exact ⟨rfl, rfl⟩

/-- Settles O52: the word decodes to a command of a width it has, which answers a result or IndexOutOfRange. -/
theorem assembledIsLegal : Obligations.AssembledIsLegal := by
  intro rs base c i args s rest h hp hr hd
  obtain ⟨hc, hw, -⟩ := assemble_op_ok h
  have hs : step s = exec i (s.take c rest) := (step_serve hp hr).trans (serve_instr (decode_assemble h))
  cases hm : c.misusesPosOf i with
  | false => exact ⟨_, _, hs.trans (exec_eq i (s.take c rest) hm), rfl, pureResponse_ne_illegalCommand hc hw c⟩
  | true =>
    obtain ⟨r, he⟩ := exec_misuse_draw i (s.take c rest) hm hd
    exact ⟨_, _, hs.trans he, rfl, by simp⟩

/-- Settles O53. -/
theorem resultReferences : Obligations.ResultReferences := by
  intro rs s k ls
  refine ⟨fun hk => ?_, fun i w r x _ _ hr hk hres hx => ?_⟩
  · have hbad := refResult_bad hk
    refine ⟨fun i args hm => ?_, fun i args hc hw => ?_, fun i o p x _ _ hr ⟨c, hx⟩ => ?_⟩
    · obtain ⟨e, he⟩ := assemble_ref_bad hbad hm
      exact ⟨e, runLines_refused he⟩
    · obtain ⟨o, os, hr⟩ := List.exists_cons_of_ne_nil ((reads_ne_nil_iff i).2 ⟨hc, hw⟩)
      exact runLines_refused (assemble_first_refused hr (asmOperand_ref_bad hbad _ o))
    · exact runLines_refused (assemble_second_refused hr hx (asmOperand_ref_bad hbad c p))
  · exact (assemble_one hr).trans (asmOperand_value_ok (refScalar_ok (refResult_ok hk hres) hx))

/-- Settles O55: one case for each place a reference can stand in. -/
theorem referenceOperands : Obligations.ReferenceOperands := by
  intro rs base k r hk hres
  have href := refResult_ok hk hres
  refine ⟨fun i w x n _ hr hx hn => ?_, fun i w x n _ hr hx hn hlt => ?_, fun w x q hx hlt => ?_,
    fun w q n hq hn => ?_, fun n t ht => ?_⟩
  · exact assemble_two_ok hr (asmOperand_value_ok (refScalar_ok href hx)) (asmOperand_pos_ok (asmSigned_num hn))
  · exact assemble_two_ok hr (asmOperand_value_ok (asmValue_num hn))
      (asmOperand_pos_ok (asmSigned_ref (refScalar_ok href hx) hlt))
  · exact assemble_two_ok rfl (asmOperand_string_ok rfl)
      (asmOperand_readIndex_ok (asmSigned_ref (refScalar_ok href hx) hlt))
  · exact assemble_two_ok rfl (asmOperand_string_ok (asmString_ref href hq))
      (asmOperand_readIndex_ok (asmSigned_num hn))
  · subst ht
    rw [assemble_combinetowide, asmTuple_ref href]
    exact ⟨_, rfl, tuple_withTuple _ t, rfl, fun j hj hn => withTuple_rest _ t hj hn⟩

/-- Settles O2, by the cases of `step`. -/
theorem stepRunsDecoded : Obligations.StepRunsDecoded := by
  refine fun s => ⟨fun c rest hp => ⟨fun hr => ⟨fun i hi => ?_, fun why hi => ?_⟩, step_inReset hp⟩, step_idle⟩
  · exact (step_serve hp hr).trans (serve_instr (s := s.take c rest) hi)
  · exact (step_serve hp hr).trans (serve_illegal (s := s.take c rest) hi)

/-- Settles O16. -/
theorem reservedAnswersIllegal : Obligations.ReservedAnswersIllegal := by
  refine fun op wc h => ⟨?_, fun s => exec_eq (.reserved op wc) s rfl⟩
  rw [ofNat_eq_commandWord, decode_commandWord, decodeOp_reserved op wc h]

/-- Settles O39: the ten scalar operations row by row, the tuple operations by their words. -/
theorem widthCodes : Obligations.WidthCodes := by
  refine ⟨rfl, rfl, rfl, rfl, fun op wc => ⟨?_, ?_⟩, rfl, rfl, width_bits_eq, rfl, rfl, rfl, rfl, rfl, rfl, ?_⟩
  · have hop : (BitVec.ofNat 4 op.val).toNat = op.val := by
      simp
      omega
    rw [← hop, ofNat_eq_commandWord, decode_commandWord]
    fin_cases op <;> rfl
  · revert wc
    decide
  · rintro op (rfl | rfl) <;> exact ⟨rfl, rfl⟩

/-- Settles O40. -/
theorem workedEncodings : Obligations.WorkedEncodings := by
  unfold Obligations.WorkedEncodings
  decide

/-- Settles O51: the two forms assemble alike by definition, and OT holds the eight bytes in order. -/
theorem pseudoForms : Obligations.PseudoForms := by
  intro rs base
  refine ⟨fun _ _ => rfl, fun _ _ _ _ _ _ _ _ => rfl, fun s => ?_⟩
  let t : Vector Byte 8 := splitIntoBytes .n8 (s.ports.value .w64)
  refine ⟨t[0], t[1], t[2], t[3], t[4], t[5], t[6], t[7], ?_, fun k => ?_⟩
  · rw [← vector8_eta t]
    rfl
  · exact (Vector.getElem?_toList (xs := #v[t[0], t[1], t[2], t[3], t[4], t[5], t[6], t[7]])).symm

end Sys2Proof.Machine

/-! # The bit-field commands (40_bit_field.md)

The operators of R101 to R104 as numbers and their laws; R106's test and R130's count as statements about the powers
of two; and the answers of the bit commands to the operands of one command. -/

namespace Sys2Proof.Machine

open Sys2Proof.Config

/-- R63 with R76's CMD = OP | (WC << 4): the word of a row that an OP selects at every width code. -/
theorem decode_or_shiftLeft {op : BitVec 4} {row : Width → Instr}
    (h : ∀ wc, decodeOp op wc = .instr (row (widthOfCode wc))) (w : Width) :
    decode (op.setWidth 32 ||| ((codeOfWidth w).setWidth 32 <<< 4)) = .instr (row w) := by
  rw [or_shiftLeft_eq_commandWord, decode_commandWord_codeOfWidth h]

/-! ## The bit operators -/

section BitOperators
variable {n pos j : Nat} (v : BitVec n)

theorem one_shiftLeft_eq_ofNat (n pos : Nat) : 1#n <<< pos = BitVec.ofNat n (2 ^ pos) := by
  apply BitVec.eq_of_toNat_eq
  rw [← BitVec.twoPow_eq, BitVec.toNat_twoPow, BitVec.toNat_ofNat]

/-- R101 on natural numbers. -/
theorem bitAt_eq_ofNat (hp : pos < n) : bitAt v pos = BitVec.ofNat 1 (v.toNat >>> pos % 2) := by
  have hbit : v.toNat >>> pos % 2 = (v.getLsbD pos).toNat := by
    rw [Nat.shiftRight_eq_div_pow, ← Nat.toNat_testBit]
    rfl
  rw [bitAt_eq_ofBool v hp, hbit]
  cases v.getLsbD pos <;> rfl

/-- R102 on natural numbers. -/
theorem setBitAt_eq_ofNat (pos : Nat) : setBitAt v pos = BitVec.ofNat n (v.toNat ||| 2 ^ pos) := by
  rw [setBitAt, one_shiftLeft_eq_ofNat, BitVec.ofNat_or, BitVec.ofNat_toNat, BitVec.setWidth_eq]

/-- R103 on natural numbers, the complement as R11 writes it. -/
theorem unsetBitAt_eq_ofNat (hp : pos < n) :
    unsetBitAt v pos = BitVec.ofNat n (v.toNat &&& (2 ^ n - 1 - 2 ^ pos)) := by
  have hnot : ~~~(1#n <<< pos) = BitVec.ofNat n (2 ^ n - 1 - 2 ^ pos) := by
    have hlt : 2 ^ pos < 2 ^ n := Nat.pow_lt_pow_right (by decide) hp
    apply BitVec.eq_of_toNat_eq
    rw [BitVec.toNat_not, one_shiftLeft_eq_ofNat, BitVec.toNat_ofNat, BitVec.toNat_ofNat, Nat.mod_eq_of_lt hlt,
      Nat.mod_eq_of_lt (Nat.sub_one_sub_lt_of_lt hlt)]
  rw [unsetBitAt, hnot, BitVec.ofNat_and, BitVec.ofNat_toNat, BitVec.setWidth_eq]

/-- R104 on natural numbers. -/
theorem toggleBitAt_eq_ofNat (pos : Nat) : toggleBitAt v pos = BitVec.ofNat n (v.toNat ^^^ 2 ^ pos) := by
  rw [toggleBitAt, one_shiftLeft_eq_ofNat, BitVec.ofNat_xor, BitVec.ofNat_toNat, BitVec.setWidth_eq]

theorem setBitAt_setBitAt (pos : Nat) : setBitAt (setBitAt v pos) pos = setBitAt v pos := by
  rw [setBitAt, setBitAt, BitVec.or_assoc, BitVec.or_self]

theorem unsetBitAt_unsetBitAt (pos : Nat) : unsetBitAt (unsetBitAt v pos) pos = unsetBitAt v pos := by
  rw [unsetBitAt, unsetBitAt, BitVec.and_assoc, BitVec.and_self]

theorem toggleBitAt_toggleBitAt (pos : Nat) : toggleBitAt (toggleBitAt v pos) pos = v := by
  rw [toggleBitAt, toggleBitAt, BitVec.xor_assoc, BitVec.xor_self, BitVec.xor_zero]

theorem bitAt_setBitAt (hp : pos < n) : bitAt (setBitAt v pos) pos = 1#1 := by
  rw [bitAt_eq_one _ hp, getLsbD_setBitAt v hp]
  simp

theorem bitAt_unsetBitAt (hp : pos < n) : bitAt (unsetBitAt v pos) pos = 0#1 := by
  rw [bitAt_eq_ofBool _ hp, getLsbD_unsetBitAt v hp hp]
  simp

theorem bitAt_toggleBitAt (hp : pos < n) : bitAt (toggleBitAt v pos) pos = 1#1 - bitAt v pos := by
  rw [bitAt_eq_ofBool _ hp, bitAt_eq_ofBool _ hp, getLsbD_toggleBitAt v hp]
  cases v.getLsbD pos <;> simp

/-- The last law of R107: the other bits are unchanged. -/
theorem bitAt_changeBit_of_ne (op : BitChange) (hp : pos < n) (hj : j < n) (hne : j ≠ pos) :
    bitAt (changeBit op v pos) j = bitAt v j := by
  rw [bitAt_eq_ofBool _ hj, bitAt_eq_ofBool _ hj]
  cases op with
  | set => simp [changeBit, getLsbD_setBitAt v hp, hne]
  | unset => simp [changeBit, getLsbD_unsetBitAt v hp hj, hne]
  | toggle => simp [changeBit, getLsbD_toggleBitAt v hp, hne]

end BitOperators

/-! ## The tests and the count -/

section Tests
variable {n : Nat} (v : BitVec n)

/-- R105 on natural numbers. -/
theorem asBool_eq : asBool v = decide (0 < v.toNat) := by
  simp [asBool, BitVec.lt_def]

/-- R106's test on natural numbers: the subtraction does not wrap, because the value is not 0. -/
theorem isPowerOfTwo_iff_and_sub_one :
    isPowerOfTwo v = true ↔ v.toNat ≠ 0 ∧ v.toNat &&& (v.toNat - 1) = 0 := by
  rw [isPowerOfTwo, Bool.and_eq_true, decide_eq_true_eq, decide_eq_true_eq, ne_eq, BitVec.toNat_eq,
    BitVec.toNat_zero]
  refine and_congr_right fun h0 => ?_
  have hone : (1#n).toNat = 1 := by
    have := v.isLt
    exact Nat.mod_eq_of_lt (by omega)
  have hle : 1#n ≤ v := by
    rw [BitVec.le_def]
    omega
  rw [BitVec.toNat_eq, BitVec.toNat_and, BitVec.toNat_sub_of_le hle, hone, BitVec.toNat_zero]

/-- R106: the W powers of two. -/
theorem isPowerOfTwo_iff_exists : isPowerOfTwo v = true ↔ ∃ k < n, v.toNat = 2 ^ k := by
  rw [isPowerOfTwo_iff_and_sub_one, Nat.ne_zero_and_sub_one_eq_zero_iff_isPowerOfTwo]
  constructor
  · rintro ⟨k, hk⟩
    exact ⟨k, (Nat.pow_lt_pow_iff_right (by decide)).1 (hk ▸ v.isLt), hk⟩
  · rintro ⟨k, -, hk⟩
    exact ⟨k, hk⟩

/-- A power of two has one bit set. -/
theorem toNat_eq_two_pow_iff {k : Nat} (hk : k < n) :
    v.toNat = 2 ^ k ↔ ∀ i < n, v.getLsbD i = true ↔ i = k := by
  constructor
  · intro h i _
    rw [BitVec.getLsbD, h, Nat.testBit_two_pow, decide_eq_true_eq, eq_comm]
  · intro h
    have hv : v = 1#n <<< k := by
      refine BitVec.eq_of_getLsbD_eq fun i hi => ?_
      rw [getLsbD_one_shiftLeft hk, Bool.eq_iff_iff, h i hi, decide_eq_true_eq]
    rw [hv, one_shiftLeft_eq_ofNat, BitVec.toNat_ofNat, Nat.mod_eq_of_lt (Nat.pow_lt_pow_right (by decide) hk)]

/-- R130's count as the size of the set of the bits that are set. -/
theorem popCount_eq_card : popCount v = {i ∈ Finset.range n | v.getLsbD i = true}.card := by
  rw [popCount_eq, ← Nat.count_eq_card_filter_range]
  simp [Nat.count]

theorem popCount_eq_one_iff : popCount v = 1 ↔ ∃ k < n, v.toNat = 2 ^ k := by
  rw [popCount_eq_card, Finset.card_eq_one]
  refine exists_congr fun k => ?_
  constructor
  · intro h
    have hmem : ∀ i, (i < n ∧ v.getLsbD i = true) ↔ i = k := by simpa [Finset.ext_iff] using h
    have hk : k < n := ((hmem k).2 rfl).1
    exact ⟨hk, (toNat_eq_two_pow_iff v hk).2 fun i hi => by rw [← hmem i, and_iff_right hi]⟩
  · rintro ⟨hk, h⟩
    ext i
    have hbit := (toNat_eq_two_pow_iff v hk).1 h i
    simp only [Finset.mem_filter, Finset.mem_range, Finset.mem_singleton]
    exact ⟨fun ⟨hi, hb⟩ => (hbit hi).1 hb, fun hi => ⟨hi ▸ hk, (hbit (hi ▸ hk)).2 hi⟩⟩

theorem popCount_pos_iff : 0 < popCount v ↔ 0 < v.toNat := by
  rw [popCount_eq, List.countP_pos_iff, Nat.pos_iff_ne_zero]
  constructor
  · rintro ⟨i, -, hi⟩ h0
    simp [BitVec.getLsbD, h0] at hi
  · intro h0
    obtain ⟨i, hi⟩ := Nat.exists_testBit_of_ne_zero h0
    exact ⟨i, List.mem_range.2 (BitVec.lt_of_getLsbD hi), hi⟩

end Tests

/-! ## The answers of the bit commands -/

/-- The command that makes a change (R102 to R104). -/
def changeInstr : BitChange → Width → Instr
  | .set => .setbitat
  | .unset => .unsetbitat
  | .toggle => .togglebitat

section Answers
variable {w : Width} {c : Command} {v x : BitVec w.bits} {b : BitVec 1}

theorem pos_toNat_lt {pos : Int} (h : PosInRange w pos) : pos.toNat < w.bits := by
  obtain ⟨hlo, hhi⟩ := h
  omega

theorem answer_bitat (h : PosInRange w c.pos) :
    answer (.bitat w) c = some (.ok (.bit (bitAt (c.value w) c.pos.toNat))) :=
  answer_eq _ c (decide_eq_false (not_not_intro h))

theorem answer_change (op : BitChange) (h : PosInRange w c.pos) :
    answer (changeInstr op w) c = some (.ok (.word w (changeBit op (c.value w) c.pos.toNat))) := by
  have hm : c.misusesPosOf (changeInstr op w) = false := by
    cases op <;> exact decide_eq_false (not_not_intro h)
  rw [answer_eq _ c hm]
  cases op <;> rfl

/-- bitat of a value put back on port A. -/
theorem answer_bitat_withA (h : PosInRange w c.pos) (hb : bitAt v c.pos.toNat = b) :
    answer (.bitat w) (c.withA v) = some (.ok (.bit b)) := by
  rw [answer_bitat (c := c.withA v) h, value_withA, ← hb]
  rfl

/-- A change of a value put back on port A. -/
theorem answer_change_withA (op : BitChange) (h : PosInRange w c.pos) (hx : changeBit op v c.pos.toNat = x) :
    answer (changeInstr op w) (c.withA v) = some (.ok (.word w x)) := by
  rw [answer_change (c := c.withA v) op h, value_withA, ← hx]
  rfl

/-- bitat at another position than the one changed. -/
theorem answer_bitat_change_of_ne (op : BitChange) (h : PosInRange w c.pos) {q : Word32}
    (hq : PosInRange w q.toInt) (hne : q.toInt ≠ c.pos) :
    answer (.bitat w) { c.withA (changeBit op (c.value w) c.pos.toNat) with p := q } =
      answer (.bitat w) { c with p := q } := by
  have hpos : q.toInt.toNat ≠ c.pos.toNat := by
    have := h.1
    have := hq.1
    omega
  have hbit := bitAt_changeBit_of_ne (c.value w) op (pos_toNat_lt h) (pos_toNat_lt hq) hpos
  exact (answer_bitat_withA (c := { c with p := q }) hq hbit).trans (answer_bitat (c := { c with p := q }) hq).symm

end Answers

/-! ## The obligations -/

/-- Settles O9: the two readings of R106's test. -/
theorem ispoweroftwoAnswers : Obligations.IspoweroftwoAnswers := by
  refine fun w s => ⟨decode_or_shiftLeft (op := 5) (fun _ => rfl) w, _, exec_eq (.ispoweroftwo w) s rfl, ?_⟩
  rw [valueNat_eq_toNat]
  exact ⟨isPowerOfTwo_iff_exists _, isPowerOfTwo_iff_and_sub_one _⟩

/-- Settles O41: the seven laws of R107 on the values, carried over to the answers. -/
theorem bitFieldLaws : Obligations.BitFieldLaws := by
  intro w c h
  have hlt := pos_toNat_lt h
  exact ⟨_, _, _, _, answer_change .set h, answer_change .unset h, answer_change .toggle h, answer_bitat h,
    answer_change_withA .set h (setBitAt_setBitAt _ _),
    answer_change_withA .unset h (unsetBitAt_unsetBitAt _ _),
    answer_change_withA .toggle h (toggleBitAt_toggleBitAt _ _),
    answer_bitat_withA h (bitAt_setBitAt _ hlt),
    answer_bitat_withA h (bitAt_unsetBitAt _ hlt),
    answer_bitat_withA h (bitAt_toggleBitAt _ hlt),
    fun q hq hne => ⟨answer_bitat_change_of_ne .set h hq hne, answer_bitat_change_of_ne .unset h hq hne,
      answer_bitat_change_of_ne .toggle h hq hne⟩⟩

/-- Settles O42: both tests and the count are decided by the value as a number. -/
theorem countDecidesTests : Obligations.CountDecidesTests := by
  refine fun w c => ⟨_, _, _, answer_eq (.popcount w) c rfl, answer_eq (.ispoweroftwo w) c rfl,
    answer_eq (.asbool w) c rfl, ?_, ?_⟩
  · rw [isPowerOfTwo_iff_exists, popCount_eq_one_iff]
  · rw [asBool_eq, decide_eq_true_eq, ← popCount_pos_iff, Nat.succ_le_iff]

/-- Settles O4. -/
theorem bitatAnswers : Obligations.BitatAnswers := by
  refine fun w s => ⟨decode_or_shiftLeft (op := 0) (fun _ => rfl) w, fun h => ?_, execBitat_draw, execBitat_fault⟩
  rw [valueNat_eq_toNat, ← bitAt_eq_ofNat _ (pos_toNat_lt h)]
  exact execBitat_inRange h

/-- Settles O5. -/
theorem setbitatAnswers : Obligations.SetbitatAnswers := by
  refine fun w s => ⟨decode_or_shiftLeft (op := 1) (fun _ => rfl) w, fun h => ?_, changeCommand_draw,
    changeCommand_fault⟩
  rw [valueNat_eq_toNat, ← setBitAt_eq_ofNat]
  exact changeCommand_inRange (op := .set) h

/-- Settles O6. -/
theorem unsetbitatAnswers : Obligations.UnsetbitatAnswers := by
  refine fun w s => ⟨decode_or_shiftLeft (op := 2) (fun _ => rfl) w, fun h => ?_, changeCommand_draw,
    changeCommand_fault⟩
  rw [valueNat_eq_toNat, ← unsetBitAt_eq_ofNat _ (pos_toNat_lt h)]
  exact changeCommand_inRange (op := .unset) h

/-- Settles O7. -/
theorem togglebitatAnswers : Obligations.TogglebitatAnswers := by
  refine fun w s => ⟨decode_or_shiftLeft (op := 3) (fun _ => rfl) w, fun h => ?_, changeCommand_draw,
    changeCommand_fault⟩
  rw [valueNat_eq_toNat, ← toggleBitAt_eq_ofNat]
  exact changeCommand_inRange (op := .toggle) h

/-- Settles O8. -/
theorem asboolAnswers : Obligations.AsboolAnswers := by
  refine fun w s => ⟨decode_or_shiftLeft (op := 4) (fun _ => rfl) w, ?_⟩
  rw [valueNat_eq_toNat, ← asBool_eq]
  exact exec_eq (.asbool w) s rfl

end Sys2Proof.Machine

/-! # The population count (41_popcount.md)

R130's count as a number, its bounds and its sum over the positions; and R132's fold, for every number of bytes, by the
lane lemmas of Laws/Swar.lean. -/

namespace Sys2Proof.Machine

open Sys2Proof.Config

/-! ## The count -/

section Count
variable {n : Nat} (v : BitVec n)

/-- R130 on natural numbers. -/
theorem popCount_eq_length_filter :
    popCount v = ((List.range n).filter fun i => v.toNat >>> i % 2 = 1).length := by
  rw [popCount_eq, List.countP_eq_length_filter]
  congr 1
  refine List.filter_congr fun i _ => ?_
  rw [Nat.shiftRight_eq_div_pow, ← Nat.testBit_eq_decide_div_mod_eq]
  rfl

theorem eq_allOnes_iff : v = BitVec.allOnes n ↔ ∀ i < n, v.getLsbD i = true := by
  constructor
  · rintro rfl i hi
    simpa using hi
  · intro h
    refine BitVec.eq_of_getLsbD_eq fun i hi => ?_
    rw [h i hi, BitVec.getLsbD_allOnes, decide_eq_true hi]

/-- R133: every bit is counted only where every bit is set. -/
theorem popCount_eq_self_iff : popCount v = n ↔ v.toNat = 2 ^ n - 1 := by
  have hall : popCount v = n ↔ ∀ i < n, v.getLsbD i = true := by
    rw [popCount_eq]
    simpa using List.countP_eq_length (p := fun i => v.getLsbD i) (l := List.range n)
  rw [hall, ← eq_allOnes_iff, BitVec.toNat_eq, BitVec.toNat_allOnes]

/-- The count adds the bits R101 reads. -/
theorem popCount_eq_sum : popCount v = ((List.range n).map fun i => (bitAt v i).toNat).sum := by
  rw [popCount]
  generalize List.range n = l
  induction l with
  | nil => rfl
  | cons i l ih =>
    have hbit : (bitAt v i).toNat = if bitAt v i == 1#1 then 1 else 0 := by
      generalize bitAt v i = b
      revert b
      decide
    rw [List.countP_cons, List.map_cons, List.sum_cons, ← ih, hbit, Nat.add_comm]

/-- R131: "zero-extension is lossless for popcount". -/
theorem popCount_setWidth_of_le {m : Nat} (h : n ≤ m) : popCount (v.setWidth m) = popCount v := by
  rw [popCount_eq_card, popCount_eq_card]
  congr 1
  ext i
  have hlt : v.getLsbD i = true → i < n := BitVec.lt_of_getLsbD
  simp only [Finset.mem_filter, Finset.mem_range, BitVec.getLsbD_setWidth, Bool.and_eq_true, decide_eq_true_eq]
  exact ⟨fun ⟨_, _, hb⟩ => ⟨hlt hb, hb⟩, fun ⟨hi, hb⟩ => ⟨hi.trans_le h, hi.trans_le h, hb⟩⟩

end Count

/-! ## What bitat answers at a position below W -/

/-- A position below W, put on port P, is read back. -/
theorem toInt_ofNat_of_lt_bits {w : Width} {i : Nat} (hi : i < w.bits) : (BitVec.ofNat 32 i).toInt = i := by
  have hw := width_bits_le w
  have htn : (BitVec.ofNat 32 i).toNat = i := Nat.mod_eq_of_lt (by omega)
  rw [BitVec.toInt_eq_toNat_of_lt (by omega), htn]

/-- Port R of bitat's answer is the bit (R70). -/
theorem rPort_answer_bitat {w : Width} (c : Command) {i : Nat} (hi : i < w.bits) :
    (answer (.bitat w) { c with p := BitVec.ofNat 32 i }).bind Response.rPort =
      some ((bitAt (c.value w) i).setWidth 64) := by
  have hpos : ({ c with p := BitVec.ofNat 32 i } : Command).pos = i := toInt_ofNat_of_lt_bits hi
  have hin : PosInRange w ({ c with p := BitVec.ofNat 32 i } : Command).pos := by
    rw [hpos]
    omega
  rw [answer_bitat hin, hpos, Int.toNat_natCast]
  rfl

/-! ## R132's fold, for m bytes -/

/-- The repeated byte in closed form. -/
theorem repByte_eq (b m : Nat) : 255 * repByte b m + b = b * 256 ^ m := by
  induction m with
  | zero => simp [repByte]
  | succ m ih =>
    rw [pow_succ, repByte]
    linarith

/-- The repeated byte grows by its top byte. -/
theorem repByte_succ_top (b m : Nat) : repByte b (m + 1) = repByte b m + 256 ^ m * b := by
  have h := repByte_eq b m
  rw [repByte]
  linarith

theorem repByte_lt {b : Nat} (hb : b < 256) (m : Nat) : repByte b m < 256 ^ m := by
  induction m with
  | zero => exact Nat.one_pos
  | succ m ih =>
    rw [pow_succ, repByte]
    omega

/-- The accumulator of `repeatByte` after k bytes: the next byte stands above them. -/
theorem repeatByte_foldl_toNat (b : Byte) {m k : Nat} (hk : k ≤ m) :
    ((List.range k).foldl (fun x i => x ||| (b.setWidth (8 * m) <<< (8 * i))) 0#(8 * m)).toNat =
      repByte b.toNat k := by
  induction k with
  | zero => simp [repByte]
  | succ k ih =>
    have hb : b.toNat < 2 ^ 8 := b.isLt
    have hpow : (256 : Nat) ^ k = 2 ^ (8 * k) := (pow_mul 2 8 k).symm
    have hlow : repByte b.toNat k < 2 ^ (8 * k) := hpow ▸ repByte_lt hb k
    have hwide : b.toNat < 2 ^ (8 * m) := hb.trans_le (Nat.pow_le_pow_right (by decide) (by omega))
    have hfit : b.toNat * 2 ^ (8 * k) < 2 ^ (8 * m) := by
      refine (Nat.mul_lt_mul_of_pos_right hb (Nat.two_pow_pos _)).trans_le ?_
      rw [← pow_add]
      exact Nat.pow_le_pow_right (by decide) (by omega)
    rw [List.range_succ, List.foldl_append, List.foldl_cons, List.foldl_nil, BitVec.toNat_or, ih (by omega),
      BitVec.toNat_shiftLeft, BitVec.toNat_setWidth, Nat.mod_eq_of_lt hwide, Nat.shiftLeft_eq, Nat.mod_eq_of_lt hfit,
      repByte_succ_top, hpow, Nat.or_comm, Nat.mul_comm, ← Nat.two_pow_add_eq_or_of_lt hlow, Nat.add_comm]

/-- R132's "the byte repeated W/8 times" is the repeated byte as a number. -/
theorem repeatByte_toNat (b : Byte) (m : Nat) : (repeatByte (8 * m) b).toNat = repByte b.toNat m := by
  rw [repeatByte, Nat.mul_div_cancel_left _ (by decide), repeatByte_foldl_toNat b le_rfl]

/-- The product with the repeated 0x01 collects the sum of the byte counts at the top byte of m + 1; below it stand
partial sums, which the bound of 8 a byte keeps from carrying into it. -/
theorem mapBytes_mul_repByte (m v : Nat) :
    ∃ Q r, mapBytes byteCount (m + 1) v * repByte 1 (m + 1) =
      256 * 256 ^ m * Q + 256 ^ m * bytesCount (m + 1) v + r ∧ r ≤ 8 * m * repByte 1 m := by
  induction m generalizing v with
  | zero => exact ⟨0, 0, by simp [mapBytes, bytesCount, repByte], le_rfl⟩
  | succ m ih =>
    obtain ⟨Q, r, he, hr⟩ := ih (v / 256)
    have hb : byteCount (v % 256) * repByte 1 (m + 1) ≤ 8 * repByte 1 (m + 1) :=
      Nat.mul_le_mul_right _ (byteCount_le _)
    have hlow : 256 * (8 * m * repByte 1 m) ≤ 8 * m * repByte 1 (m + 1) := by
      rw [repByte]
      linarith
    refine ⟨mapBytes byteCount (m + 1) (v / 256) + Q, 256 * r + byteCount (v % 256) * repByte 1 (m + 1), ?_, ?_⟩
    · rw [mapBytes, bytesCount, repByte_succ_top 1 (m + 1), pow_succ]
      linear_combination 256 * he
    · linarith

/-- R132's fold of m + 1 bytes counts the bits, as long as the count fits a byte with the partial sums below it. -/
theorem popCountSwar_toNat_eq_popCount {m : Nat} (hm : m < 31) (v : BitVec (8 * (m + 1))) :
    (popCountSwar v).toNat = popCount v := by
  have hpow : 2 ^ (8 * (m + 1)) = 256 ^ (m + 1) := pow_mul 2 8 (m + 1)
  have h33 := repByte_eq 0x33 (m + 1)
  rw [popCountSwar_toNat v hpow (repeatByte_toNat _ _) (repeatByte_toNat _ _) (repeatByte_toNat _ _)
    (repeatByte_toNat _ _) (by omega)]
  obtain ⟨Q, r, he, hr⟩ := mapBytes_mul_repByte m v.toNat
  have hlow : r < 256 ^ m := by
    have hone := repByte_eq 1 m
    have hm8 : 8 * m * repByte 1 m ≤ 255 * repByte 1 m := Nat.mul_le_mul_right _ (by omega)
    omega
  have hcount : bytesCount (m + 1) v.toNat < 256 := by
    have hle := popCount_le v
    rw [popCount_eq_bytesCount rfl] at hle
    omega
  rw [popCount_eq_bytesCount rfl, show 8 * (m + 1) - 8 = 8 * m by omega, hpow,
    show 2 ^ (8 * m) = 256 ^ m from pow_mul 2 8 m, pow_succ, Nat.mul_comm (256 ^ m)]
  exact top_byte he hlow hcount

/-! ## The obligations -/

/-- Settles O45: the fold counts the bits of 2, 4 and 8 bytes, and 8 bits are counted as zext_32 of them. -/
theorem swarCountsBits : Obligations.SwarCountsBits := by
  intro w v
  cases w with
  | w8 =>
    exact (popCountSwar_toNat_eq_popCount (m := 3) (by decide) _).trans (popCount_setWidth_of_le v (by decide))
  | w16 => exact popCountSwar_toNat_eq_popCount (m := 1) (by decide) v
  | w32 => exact popCountSwar_toNat_eq_popCount (m := 3) (by decide) v
  | w64 => exact popCountSwar_toNat_eq_popCount (m := 7) (by decide) v

/-- Settles O10. -/
theorem popcountAnswers : Obligations.PopcountAnswers := by
  refine fun w s => ⟨decode_or_shiftLeft (op := 6) (fun _ => rfl) w, ?_⟩
  rw [valueNat_eq_toNat, ← popCount_eq_length_filter]
  exact exec_eq (.popcount w) s rfl

/-- Settles O43. -/
theorem popcountRange : Obligations.PopcountRange := by
  refine fun w c => ⟨_, answer_eq (.popcount w) c rfl, popCount_le _, ?_⟩
  rw [valueNat_eq_toNat]
  exact popCount_eq_self_iff _

/-- Settles O44: bitat answers bit i at pos i, because every i below W is in range. -/
theorem popcountSumsBitat : Obligations.PopcountSumsBitat := by
  intro w c
  have hsum : popCount (c.value w) = ((List.range w.bits).map fun i =>
      (((answer (.bitat w) { c with p := BitVec.ofNat 32 i }).bind Response.rPort).map BitVec.toNat).getD 0).sum := by
    rw [popCount_eq_sum]
    congr 1
    refine List.map_congr_left fun i hi => ?_
    rw [rPort_answer_bitat c (List.mem_range.1 hi), Option.map_some, Option.getD_some,
      BitVec.toNat_setWidth_of_le (by decide)]
  rw [answer_eq (.popcount w) c rfl, pureResponse, hsum]

end Sys2Proof.Machine

/-! # The string codec (42_string_codec.md)

The two binary loops character by character and their two laws of inversion (R153); and R154's digits for every value,
zero included. -/

namespace Sys2Proof.Machine

open Sys2Proof.Config

/-! ## Binary strings (R150 to R153) -/

section Binary
variable {n : Nat} {str : List Chr} (v : BitVec n)

/-- A bit, as the rules write it on numbers. -/
theorem toNat_shiftRight_mod_two_eq_one_iff (i : Nat) : v.toNat >>> i % 2 = 1 ↔ v.getLsbD i = true := by
  rw [BitVec.getLsbD, Nat.testBit_eq_decide_div_mod_eq, decide_eq_true_eq, Nat.shiftRight_eq_div_pow]

/-- R151, character by character: the one at ri + k is bit W-1-k. -/
theorem getLsbD_fromBitString_rev (n : Nat) (str : List Chr) (ri : Nat) {k : Nat} (hk : k < n) :
    (fromBitString n str ri).getLsbD (n - 1 - k) = decide (str[ri + k]? = some '1') := by
  rw [getLsbD_fromBitString n str ri (by omega), show n - 1 - (n - 1 - k) = k by omega]

/-- R152: which character stands for a 0 does not matter. -/
theorem fromBitString_map {f : Chr → Chr} (hf : ∀ ch, f ch = '1' ↔ ch = '1') (n : Nat) (str : List Chr) (ri : Nat) :
    fromBitString n (str.map f) ri = fromBitString n str ri := by
  refine BitVec.eq_of_getLsbD_eq fun j hj => ?_
  rw [getLsbD_fromBitString n _ ri hj, getLsbD_fromBitString n _ ri hj]
  simp [hf]

theorem fromBitString_bitString : fromBitString n (bitString v) 0 = v := by
  refine BitVec.eq_of_getLsbD_eq fun j hj => ?_
  have hk : n - 1 - j < n := by omega
  rw [getLsbD_fromBitString n _ 0 hj, Nat.zero_add, bitString_getElem? v hk, show n - 1 - (n - 1 - j) = j by omega]
  cases v.getLsbD j <;> rfl

theorem bitString_fromBitString (hlen : str.length = n) (hbin : ∀ ch ∈ str, ch = '0' ∨ ch = '1') :
    bitString (fromBitString n str 0) = str := by
  refine List.ext_getElem? fun k => ?_
  by_cases hk : k < n
  · have hget : str[k]? = some str[k] := List.getElem?_eq_getElem (hlen ▸ hk)
    rw [bitString_getElem? _ hk, getLsbD_fromBitString_rev n str 0 hk, Nat.zero_add, hget]
    rcases hbin _ (List.getElem_mem (hlen ▸ hk)) with h | h <;> rw [h] <;> rfl
  · rw [List.getElem?_eq_none (by simpa using hk), List.getElem?_eq_none (by omega)]

end Binary

/-! ## What frombitstring answers -/

section Frombitstring
variable {w : Width} {c : Command}

/-- R151 with W characters available from ri. -/
theorem pureResponse_frombitstring_ok (hri : 0 ≤ c.readIndex) (hlen : c.readIndex + w.bits ≤ c.s.length) :
    pureResponse (.frombitstring w) c = .ok (.word w (fromBitString w.bits c.s c.readIndex.toNat)) :=
  if_neg (not_or.2 ⟨hri.not_gt, hlen.not_gt⟩)

/-- R152 and R204 on the whole response: the bound and the bits are those of the string with its 0s rewritten. -/
theorem pureResponse_frombitstring_map {f : Chr → Chr} (hf : ∀ ch, f ch = '1' ↔ ch = '1') (w : Width) (c : Command) :
    pureResponse (.frombitstring w) { c with s := c.s.map f } = pureResponse (.frombitstring w) c := by
  simp only [pureResponse, Command.readIndex, Command.string, List.length_map, fromBitString_map hf]
  congr

theorem answer_frombitstring_zero (hri : c.ri = 0) (hlen : c.s.length = w.bits) :
    answer (.frombitstring w) c = some (.ok (.word w (fromBitString w.bits c.s 0))) := by
  have h0 : c.readIndex = 0 := by simp [Command.readIndex, hri]
  rw [answer_eq _ c rfl, pureResponse_frombitstring_ok h0.ge (by omega), h0, Int.toNat_zero]

end Frombitstring

/-! ## Hexadecimal strings (R154) -/

/-- R154 for every value: zero is the one digit 0 (D12), and no other numeral begins with 0. -/
theorem hexString_digits (w : Width) (v : BitVec w.bits) :
    ∃ ds : List Nat, hexString v = ds.map digit ∧ (∀ d ∈ ds, d < 16) ∧ hexValue ds = v.toNat ∧
      (v.toNat = 0 → ds = [0]) ∧ (v.toNat ≠ 0 → ds.head? ≠ some 0) := by
  by_cases h0 : v = 0#w.bits
  · subst h0
    exact ⟨[0], if_pos rfl, by simp, by simp [hexValue], fun _ => rfl, fun h => absurd BitVec.toNat_zero h⟩
  · obtain ⟨ds, he, hlt, hval, hhead, -⟩ := hexString_spec (m := w.bits / 4) v (by cases w <;> rfl) h0
    exact ⟨ds, he, hlt, hval, fun h => absurd (BitVec.eq_of_toNat_eq h) h0, fun _ => hhead⟩

/-- R154's sixteen characters, with any default behind them. -/
theorem digit_eq_getD (ch : Chr) : ∀ d < 16, digit d = digits.getD d ch :=
  fun _ hd => (List.getD_eq_getElem digits '0' hd).trans (List.getD_eq_getElem digits ch hd).symm

/-! ## The obligations -/

/-- Settles O11. -/
theorem bitstringAnswers : Obligations.BitstringAnswers := by
  refine fun w s => ⟨decode_or_shiftLeft (op := 7) (fun _ => rfl) w, _, exec_eq (.bitstring w) s rfl,
    bitString_length _, fun k hk => ?_⟩
  simp only [valueNat_eq_toNat, toNat_shiftRight_mod_two_eq_one_iff]
  exact bitString_getElem? _ hk

/-- Settles O12. -/
theorem frombitstringAnswers : Obligations.FrombitstringAnswers := fun w _ =>
  ⟨decode_or_shiftLeft (op := 8) (fun _ => rfl) w, execFrombitstring_error, fun h =>
    ⟨_, execFrombitstring_ok h, fun _ hk => getLsbD_fromBitString_rev _ _ _ hk⟩⟩

/-- Settles O13: the digits of `hexString_digits`, as many as `hexString_length` allows. -/
theorem hexstringAnswers : Obligations.HexstringAnswers := by
  intro w s
  obtain ⟨ds, he, hlt, hval, hzero, hhead⟩ := hexString_digits w (s.ports.value w)
  have hlen := hexString_length w (s.ports.value w)
  rw [he, List.length_map] at hlen
  rw [List.map_congr_left fun d hd => digit_eq_getD '?' d (hlt d hd)] at he
  rw [valueNat_eq_toNat]
  refine ⟨decode_or_shiftLeft (op := 9) (fun _ => rfl) w, ds, ?_, hlt, hval, hzero, hhead, hlen⟩
  rw [exec_eq (.hexstring w) s rfl, pureResponse, he]
  rfl

/-- Settles O18: the response is a function of which characters are '1' and of how many there are. -/
theorem frombitstringLenient : Obligations.FrombitstringLenient := by
  intro w s
  have hf : ∀ ch : Chr, (if ch = '1' then '1' else '0') = '1' ↔ ch = '1' := fun ch => by simp
  refine ⟨_, exec_eq (.frombitstring w) s rfl, ?_, ?_⟩
  · rw [exec_eq (.frombitstring w) _ rfl, pureResponse_frombitstring_map hf]
  · rintro ⟨hri, hlen⟩
    rw [pureResponse_frombitstring_ok hri hlen]
    refine ⟨rfl, _, rfl, fun k hk hne => ?_⟩
    rw [getLsbD_fromBitString_rev _ _ _ hk]
    exact decide_eq_false hne

/-- Settles O46: R153's two laws on the values, carried over to the answers. -/
theorem binaryRoundTrip : Obligations.BinaryRoundTrip := by
  constructor
  · refine fun w c => ⟨_, answer_eq (.bitstring w) c rfl, fun d hs hri => ?_⟩
    rw [answer_frombitstring_zero hri (by rw [hs, bitString_length]), hs, fromBitString_bitString]
  · refine fun w d hlen hbin hri => ⟨_, answer_frombitstring_zero hri hlen, fun c => ?_⟩
    rw [answer_eq (.bitstring w) _ rfl, pureResponse, value_withA, bitString_fromBitString hlen hbin]

end Sys2Proof.Machine

/-! # The tuple codec (43_tuple_codec.md)

R181's bytes as numbers, the two directions of R182 bit by bit, and the eight-byte value as its two groups
(20_memory.md section 2). -/

namespace Sys2Proof.Machine

section Codec
variable {n : Arity}

/-- R181 on numbers: byte i is (v >> (W - 8 - 8i)) mod 256. -/
theorem toNat_splitIntoBytes (v : BitVec n.width.bits) {i : Nat} (hi : i < n.count) :
    (splitIntoBytes n v)[i].toNat = v.toNat >>> (n.width.bits - 8 - 8 * i) % 256 := by
  have h255 : (BitVec.ofNat n.width.bits 0xFF).toNat = 2 ^ 8 - 1 := by cases n <;> rfl
  rw [splitIntoBytes_getElem n v i hi, BitVec.toNat_setWidth, BitVec.toNat_and, h255, Nat.and_two_pow_sub_one_eq_mod,
    Nat.mod_mod, BitVec.toNat_ushiftRight]

/-- R182, unpacking after packing: bit k of byte i is bit W - 8 - 8i + k of the value, which is bit k of byte i. -/
theorem splitIntoBytes_combineToWide (t : Vector Byte n.count) : splitIntoBytes n (combineToWide n t) = t := by
  refine Vector.ext fun i hi => BitVec.eq_of_getLsbD_eq fun k hk => ?_
  have hW := width_bits_eq n
  have hbyte : n.count - 1 - (n.width.bits - 8 - 8 * i + k) / 8 = i := by omega
  have hbit : (n.width.bits - 8 - 8 * i + k) % 8 = k := by omega
  rw [getLsbD_splitIntoBytes n _ i hi k hk, getLsbD_combineToWide n t _ (by omega)]
  simp only [hbyte, hbit]

/-- R182, packing after unpacking: bit j of the value stands in byte N-1-j/8 at place j mod 8. -/
theorem combineToWide_splitIntoBytes (v : BitVec n.width.bits) : combineToWide n (splitIntoBytes n v) = v := by
  refine BitVec.eq_of_getLsbD_eq fun j hj => ?_
  have hW := width_bits_eq n
  have hpos : n.width.bits - 8 - 8 * (n.count - 1 - j / 8) + j % 8 = j := by omega
  rw [getLsbD_combineToWide n _ j hj, getLsbD_splitIntoBytes n v _ (by omega) _ (by omega), hpos]

end Codec

/-- 20_memory.md section 2: the bytes T[0..3] stand 32 bits above T[4..7]. -/
theorem toNat_combine_tuple_n8_eq_groups {c d : Command}
    (h : d.t[0] = c.t[4] ∧ d.t[1] = c.t[5] ∧ d.t[2] = c.t[6] ∧ d.t[3] = c.t[7]) :
    (combineToWide .n8 (c.tuple .n8)).toNat =
      (combineToWide .n4 (c.tuple .n4)).toNat * 2 ^ 32 + (combineToWide .n4 (d.tuple .n4)).toNat := by
  obtain ⟨h0, h1, h2, h3⟩ := h
  have hlo : (combineToWide .n4 (d.tuple .n4)).toNat < 2 ^ 32 := (combineToWide .n4 (d.tuple .n4)).isLt
  rw [← Nat.shiftLeft_eq, Nat.shiftLeft_add_eq_or_of_lt hlo, toNat_combine_tuple_n8, toNat_combine_tuple_n4,
    toNat_combine_tuple_n4, h0, h1, h2, h3]
  simp only [Nat.shiftLeft_or_distrib, ← Nat.shiftLeft_add, Nat.reduceAdd, Nat.or_assoc]

/-! ## What the tuple commands answer -/

theorem pureResponse_combinetowide (n : Arity) (c : Command) :
    pureResponse (.combinetowide n.width) c = .ok (.word n.width (combineToWide n (c.tuple n))) := by
  cases n <;> rfl

theorem pureResponse_splitintobytes (n : Arity) (c : Command) :
    pureResponse (.splitintobytes n.width) c = .ok (.bytes n (splitIntoBytes n (c.value n.width))) := by
  cases n <;> rfl

/-- R180 with the packed value given as a number. -/
theorem exec_combinetowide_of_toNat {n : Arity} {s : State} {x : Nat}
    (h : (combineToWide n (s.ports.tuple n)).toNat = x) :
    exec (.combinetowide n.width) s =
      .next (s.respond (.ok (.word n.width (BitVec.ofNat n.width.bits x)))) := by
  rw [exec_eq _ s rfl, pureResponse_combinetowide, ← h, BitVec.ofNat_toNat, BitVec.setWidth_eq]

theorem exec_splitintobytes (n : Arity) (s : State) :
    exec (.splitintobytes n.width) s =
      .next (s.respond (.ok (.bytes n (splitIntoBytes n (s.ports.value n.width))))) := by
  rw [exec_eq _ s rfl, pureResponse_splitintobytes]

theorem answer_combinetowide (n : Arity) (c : Command) :
    answer (.combinetowide n.width) c = some (.ok (.word n.width (combineToWide n (c.tuple n)))) := by
  rw [answer_eq _ c rfl, pureResponse_combinetowide]

theorem answer_splitintobytes (n : Arity) (c : Command) :
    answer (.splitintobytes n.width) c = some (.ok (.bytes n (splitIntoBytes n (c.value n.width)))) := by
  rw [answer_eq _ c rfl, pureResponse_splitintobytes]

/-! ## The obligations -/

/-- Settles O14: R180's sum of shifted bytes is the packed value as a number, at both arities. -/
theorem combinetowideAnswers : Obligations.CombinetowideAnswers :=
  ⟨rfl, rfl, rfl, rfl, fun s =>
    ⟨exec_combinetowide_of_toNat (n := .n4) (toNat_combine_tuple_n4 s.ports),
      exec_combinetowide_of_toNat (n := .n8) (toNat_combine_tuple_n8 s.ports), rfl, rfl⟩⟩

/-- Settles O15. -/
theorem splitintobytesAnswers : Obligations.SplitintobytesAnswers := by
  refine ⟨rfl, rfl, rfl, rfl, fun s => ⟨fun n => ⟨_, exec_splitintobytes n s, fun i hi => ?_⟩, rfl, rfl⟩⟩
  rw [valueNat_eq_toNat]
  exact toNat_splitIntoBytes _ hi

/-- Settles O47: R182's two laws on the values, carried over to the answers. -/
theorem tupleRoundTrip : Obligations.TupleRoundTrip := by
  refine fun n c => ⟨⟨_, answer_combinetowide n c, ?_⟩, _, answer_splitintobytes n c, fun d hd => ?_⟩
  · rw [answer_splitintobytes, value_withA, splitIntoBytes_combineToWide]
  · rw [answer_combinetowide, hd, combineToWide_splitIntoBytes]

/-- Settles O48. -/
theorem nestedTuple : Obligations.NestedTuple := fun c d h =>
  ⟨_, _, _, answer_combinetowide .n8 c, answer_combinetowide .n4 c, answer_combinetowide .n4 d,
    toNat_combine_tuple_n8_eq_groups h⟩

end Sys2Proof.Machine

/-! # The exceptions (60_exceptions.md)

Which response each of the two errors is: of the instruction, for IndexOutOfRange, and of the word alone, for
IllegalCommand; and the one inversion of a step that answers an error, from which the frame of an error and the command
behind it follow. -/

namespace Sys2Proof

/-! ## The words answered with IllegalCommand (R71 to R73) -/

theorem isIllegalWord_ofNat_iff : ∀ n < 64, isIllegalWord (BitVec.ofNat 32 n) = true ↔
    12 ≤ n % 16 ∨ ((n % 16 = 10 ∨ n % 16 = 11) ∧ n / 16 % 4 < 2) := by decide

/-- R202's list: reserved bits (R73), a reserved OP (R71), a tuple OP at width 8 or 16 (R72). -/
theorem isIllegalWord_iff (w : CmdWord) : isIllegalWord w = true ↔
    w.toNat / 64 ≠ 0 ∨ 12 ≤ w.toNat % 16 ∨
      ((w.toNat % 16 = 10 ∨ w.toNat % 16 = 11) ∧ w.toNat / 16 % 4 < 2) := by
  by_cases hw : w.toNat < 64
  · simpa [Nat.div_eq_of_lt hw] using isIllegalWord_ofNat_iff w.toNat hw
  · have hill : isIllegalWord w = true := by rw [isIllegalWord, decode_of_rsv hw]
    exact iff_of_true hill (.inl (by omega))

end Sys2Proof

namespace Sys2Proof.Machine

open Sys2Proof.Config

/-! ## A pos outside [0, W) (R100, R203) -/

theorem not_posInRange_iff (w : Width) (pos : Int) : ¬ PosInRange w pos ↔ pos < 0 ∨ (w.bits : Int) ≤ pos := by
  rw [not_and_or, not_le, not_lt]

theorem misusesPosOf_eq_true_iff (i : Instr) (c : Command) :
    c.misusesPosOf i = true ↔
      ∃ w, (i = .bitat w ∨ i = .setbitat w ∨ i = .unsetbitat w ∨ i = .togglebitat w) ∧ ¬ PosInRange w c.pos := by
  constructor
  · intro h
    cases i with
    | bitat w | setbitat w | unsetbitat w | togglebitat w => exact ⟨w, by simp, of_decide_eq_true h⟩
    | _ => cases h
  · rintro ⟨w, rfl | rfl | rfl | rfl, h⟩ <;> exact decide_eq_true h

theorem isCommand_of_misusesPosOf {i : Instr} {c : Command} (h : c.misusesPosOf i = true) : i.isCommand = true := by
  obtain ⟨w, rfl | rfl | rfl | rfl, -⟩ := (misusesPosOf_eq_true_iff i c).1 h <;> rfl

/-- What R100 allows is no error. -/
theorem mayDraw_status {i : Instr} {r : Response} (h : mayDraw i r) : r.status = 0#2 := by
  cases i with
  | bitat w | setbitat w | unsetbitat w | togglebitat w => obtain ⟨_, rfl⟩ := h; rfl
  | _ => exact h.elim

/-! ## Which response is an error -/

/-- R201, for an instruction that draws nothing. -/
theorem pureResponse_eq_indexOutOfRange_iff (i : Instr) (c : Command) :
    pureResponse i c = .indexOutOfRange ↔
      ∃ w, i = .frombitstring w ∧ (c.readIndex < 0 ∨ c.readIndex + w.bits > c.string.length) := by
  cases i with
  | frombitstring w => simp [pureResponse, or_iff_not_imp_left]
  | combinetowide w | splitintobytes w => cases w <;> simp [pureResponse]
  | _ => simp [pureResponse]

/-- R202: whether the response is IllegalCommand is decided by the word, whatever the operand ports hold. -/
theorem servedResponse_eq_illegalCommand_iff (c : Command) :
    servedResponse c = .illegalCommand ↔ isIllegalWord c.cmd = true := by
  cases hd : decode c.cmd with
  | illegal why => simp [servedResponse, isIllegalWord, hd]
  | instr i =>
    have hw := (encode_of_decode hd).2
    cases hc : i.isCommand with
    | true => simp [servedResponse, isIllegalWord, hd, hc, pureResponse_ne_illegalCommand hc hw]
    | false =>
      cases i with
      | reserved op wc => simp [servedResponse, isIllegalWord, hd, hc, pureResponse]
      | _ => cases hc

/-- A word answered with IllegalCommand reads no pos. -/
theorem misusesPos_of_isIllegalWord {c : Command} (h : isIllegalWord c.cmd = true) : c.misusesPos = false := by
  refine Bool.eq_false_iff.2 fun hm => ?_
  obtain ⟨i, hd, hi⟩ := (misusesPos_eq_true_iff c).1 hm
  simp [isIllegalWord, hd, isCommand_of_misusesPosOf hi] at h

/-! ## The step that answers an error (R206) -/

/-- A step that answers an error has drawn nothing, and only takes the command and responds. -/
theorem step_error {s t : State} {c : Command} {rest : List HostInput} {e : Response}
    (hp : s.pending = .command c :: rest) (hr : s.resetAsserted = false) (h : step s = .next t)
    (ho : t.outputs = some e) (he : e.status ≠ 0#2) :
    e = servedResponse c ∧ t = (s.take c rest).respond e := by
  cases hm : c.misusesPos with
  | false =>
    rw [step_command hp hr hm] at h
    cases h
    cases ho
    exact ⟨rfl, rfl⟩
  | true =>
    rw [step_serve hp hr] at h
    obtain ⟨hm', -⟩ | ⟨-, -, r, rfl⟩ := serve_next_cases h
    · cases hm.symm.trans hm'
    · cases ho
      exact absurd rfl he

/-! ## The obligations -/

/-- Settles O17: the misuse is read off the four rows, and a draw is one R100 allows. -/
theorem misuseIsNotAnError : Obligations.MisuseIsNotAnError := by
  refine fun i s => ⟨?_, fun hm hd => ?_⟩
  · simp only [misusesPosOf_eq_true_iff, not_posInRange_iff, Command.pos]
  · obtain ⟨r, he, hr⟩ := exec_misuse_mayDraw i s hm hd
    exact ⟨_, r, he, rfl, hr, mayDraw_status hr, rfl⟩

/-- Settles O19: a command that draws nothing answers R26's response, and one that draws is no frombitstring and
answers no error. -/
theorem indexOutOfRangeExactly : Obligations.IndexOutOfRangeExactly := by
  intro i s t h
  obtain ⟨-, rfl⟩ | ⟨hm, r, hr, rfl⟩ := exec_next_response h
  · exact Option.some_inj.trans (pureResponse_eq_indexOutOfRange_iff i s.ports)
  · refine iff_of_false (fun ho => ?_) ?_
    · cases ho
      cases mayDraw_status hr
    · rintro ⟨w, rfl, -⟩
      cases hm

/-- Settles O20: the response of a word on the list is IllegalCommand, and a step that answers it has served such a
word. -/
theorem illegalCommandExactly : Obligations.IllegalCommandExactly := by
  intro s c rest hp hr
  rw [← isIllegalWord_iff]
  refine ⟨fun hw => ?_, fun hw t h ho => hw ?_⟩
  · rw [step_command hp hr (misusesPos_of_isIllegalWord hw), (servedResponse_eq_illegalCommand_iff c).2 hw]
    rfl
  · obtain ⟨he, -⟩ := step_error hp hr h ho (by decide)
    exact (servedResponse_eq_illegalCommand_iff c).1 he.symm

/-- Settles O21. -/
theorem errorsHaveNoEffect : Obligations.ErrorsHaveNoEffect := by
  intro s t c rest r hp hr h ho he
  refine ⟨(step_error hp hr h ho he).2, ?_⟩
  simp [Response.rPort, Response.osPort, Response.otPort, result?_eq_none he]

/-- Settles O23: after the error the state differs from the one without it in the ports, which the next command takes
over, and in what the host has seen. -/
theorem commandAfterError : Obligations.CommandAfterError := by
  intro s t c d rest e hp hr h ho he
  obtain ⟨-, rfl⟩ := step_error hp hr h ho he
  have htrace (r : Response) : (s.trace ++ [e]) ++ [r] = s.trace ++ [e, r] := List.append_assoc _ _ _
  refine ⟨fun hm => ⟨servedResponse d, step_command rfl hr hm, ?_⟩, fun hm hd => ?_⟩
  · rw [← htrace]
    exact step_command rfl hr hm
  · obtain ⟨i, q, hi, hq, hu⟩ := step_command_draw (s := { s with pending := .command d :: rest }) rfl hr hm hd
    obtain ⟨j, r, hj, hr', hv⟩ :=
      step_command_draw (s := (s.take c (.command d :: rest)).respond e) rfl hr hm hd
    cases hi.symm.trans hj
    exact ⟨i, q, r, _, _, hi, hq, hr', hu, rfl, rfl, hv, rfl, htrace r, rfl, rfl⟩

/-- Settles O22. -/
theorem statusCodes : Obligations.StatusCodes := by
  refine ⟨fun _ => rfl, rfl, rfl, fun r => ?_⟩
  cases r <;> simp [Response.status]

end Sys2Proof.Machine

/-! # Reset and completion (70_reset_and_hazards.md)

What a step under reset does; the two ways a step can end, of which the only stop is the model's misuse fault; and what
one step adds to the responses, from which a run to the end of the waiting inputs follows by induction on them. -/

namespace Sys2Proof.Machine

section ResetAndCompletion
variable {s t u : State} {c : Command} {rest : List HostInput}

/-! ## Commands cut off by reset (R231, 92_eei_decisions.md D25) -/

/-- With no command in flight, cutting by reset asserts it. -/
theorem step_cutByReset_nil (hp : s.pending = []) : step s.cutByReset = .next (s.assertReset []) := by
  rw [State.cutByReset, hp]
  exact step_assertReset rfl

/-- The command in flight is cut off. -/
theorem step_cutByReset_command (hp : s.pending = .command c :: rest) :
    step s.cutByReset = .next (s.cutOff c rest) := by
  rw [State.cutByReset, hp]
  exact step_cutOff rfl

/-- Commands that wait under reset are taken one by one, and only the input ports show it. -/
theorem run_commands_inReset (cs : List Command) (s : State) (hp : s.pending = cs.map .command)
    (hr : s.resetAsserted = true) :
    ∃ p, Host.Core.run Sys2Proof.core cs.length s = .next { s with ports := p, pending := [] } := by
  induction cs generalizing s with
  | nil =>
    have hnil : s.pending = [] := hp
    exact ⟨s.ports, by rw [← hnil, List.length_nil, run_zero]⟩
  | cons c cs ih =>
    obtain ⟨p, hrun⟩ := ih (s.take c (cs.map .command)) rfl hr
    exact ⟨p, (run_succ (step_inReset hp hr)).trans hrun⟩

/-! ## How a step can end (R235, R100) -/

/-- The step on a misused pos under the model-only policy `fault`. -/
theorem step_command_fault (hp : s.pending = .command c :: rest) (hr : s.resetAsserted = false)
    (hm : c.misusesPos = true) (hf : s.params.oobPosPolicy = .fault) : step s = .fault .posMisuse := by
  obtain ⟨i, hi, hmi⟩ := (misusesPos_eq_true_iff c).1 hm
  exact (step_serve hp hr).trans ((serve_instr (s := s.take c rest) hi).trans (exec_misuse_fault i _ hmi hf))

/-- A step has a next state, or it is the model-only misuse fault on the command it takes. -/
theorem step_next_or_misuse (s : State) :
    (∃ t, step s = .next t) ∨
    (step s = .fault .posMisuse ∧ s.params.oobPosPolicy = .fault ∧
      ∃ c rest, s.pending = .command c :: rest ∧ s.resetAsserted = false ∧ c.misusesPos = true) := by
  cases hp : s.pending with
  | nil => exact .inl ⟨_, step_idle hp⟩
  | cons x rest =>
    cases x with
    | assertReset => exact .inl ⟨_, step_assertReset hp⟩
    | cutOff c => exact .inl ⟨_, step_cutOff hp⟩
    | releaseReset => exact .inl ⟨_, step_releaseReset hp⟩
    | command c =>
      cases hr : s.resetAsserted with
      | true => exact .inl ⟨_, step_inReset hp hr⟩
      | false =>
        cases hm : c.misusesPos with
        | false => exact .inl ⟨_, step_command hp hr hm⟩
        | true =>
          cases hd : s.params.oobPosPolicy with
          | draw =>
            obtain ⟨_, r, _, _, hstep⟩ := step_command_draw hp hr hm hd
            exact .inl ⟨_, hstep⟩
          | fault => exact .inr ⟨step_command_fault hp hr hm hd, rfl, c, rest, rfl, rfl, hm⟩

/-! ## One response for each command served (R26, R235) -/

/-- A response R26 allows a command: the one it gets right after reset, or OK where it misuses pos. -/
def AnswersCommand (c : Command) (r : Response) : Prop :=
  (c.misusesPos = false → respondsFromReset c = some r) ∧ (c.misusesPos = true → r.status = 0#2)

/-- Between two states the commands have got one response each, in order, and no other was given. -/
def AnsweredBetween (cs : List Command) (s t : State) : Prop :=
  ∃ rs, t.trace = s.trace ++ rs ∧ List.Forall₂ AnswersCommand cs rs

theorem AnsweredBetween.of_trace_eq (h : t.trace = s.trace) : AnsweredBetween [] s t :=
  ⟨[], by rw [h, List.append_nil], .nil⟩

theorem AnsweredBetween.of_trace_append {r : Response} (h : t.trace = s.trace ++ [r]) (hr : AnswersCommand c r) :
    AnsweredBetween [c] s t :=
  ⟨[r], h, .cons hr .nil⟩

theorem AnsweredBetween.trans {cs ds : List Command} (h₁ : AnsweredBetween cs s t) (h₂ : AnsweredBetween ds t u) :
    AnsweredBetween (cs ++ ds) s u := by
  obtain ⟨rs, htr₁, hall₁⟩ := h₁
  obtain ⟨qs, htr₂, hall₂⟩ := h₂
  exact ⟨rs ++ qs, by rw [htr₂, htr₁, List.append_assoc], List.rel_append hall₁ hall₂⟩

/-- Under `draw` a command taken outside reset gets a response R26 allows. -/
theorem step_answers_command (hp : s.pending = .command c :: rest) (hr : s.resetAsserted = false)
    (hd : s.params.oobPosPolicy = .draw) :
    ∃ t, step s = .next t ∧ t.pending = rest ∧ t.resetAsserted = false ∧ t.params = s.params ∧
      AnsweredBetween [c] s t := by
  cases hm : c.misusesPos with
  | false =>
    have hans : AnswersCommand c (servedResponse c) := ⟨respondsFromReset_eq c, fun h => by simp [hm] at h⟩
    exact ⟨_, step_command hp hr hm, rfl, hr, rfl, .of_trace_append rfl hans⟩
  | true =>
    obtain ⟨i, r, _, hdraw, hstep⟩ := step_command_draw hp hr hm hd
    have hans : AnswersCommand c r := ⟨fun h => by simp [hm] at h, fun _ => mayDraw_status hdraw⟩
    exact ⟨_, hstep, rfl, hr, rfl, .of_trace_append rfl hans⟩

/-- Under `draw` a step takes the oldest waiting input and answers what the input adds to the served commands. -/
theorem step_answers_input {x : HostInput} (hp : s.pending = x :: rest) (hd : s.params.oobPosPolicy = .draw) :
    ∃ t cs, step s = .next t ∧ t.pending = rest ∧ t.params = s.params ∧ AnsweredBetween cs s t ∧
      served s.resetAsserted (x :: rest) = cs ++ served t.resetAsserted rest := by
  cases x with
  | assertReset => exact ⟨_, [], step_assertReset hp, rfl, rfl, .of_trace_eq rfl, by simp [served]⟩
  | cutOff c => exact ⟨_, [], step_cutOff hp, rfl, rfl, .of_trace_eq rfl, by simp [served]⟩
  | releaseReset => exact ⟨_, [], step_releaseReset hp, rfl, rfl, .of_trace_eq rfl, by simp [served]⟩
  | command c =>
    cases hr : s.resetAsserted with
    | true => exact ⟨_, [], step_inReset hp hr, rfl, rfl, .of_trace_eq rfl, by simp [served, hr]⟩
    | false =>
      obtain ⟨t, hstep, hpt, hrt, hparams, hans⟩ := step_answers_command hp hr hd
      exact ⟨t, [c], hstep, hpt, hparams, hans, by simp [served, hrt]⟩

/-- Under `draw` as many steps as inputs wait take them all and answer the served commands. -/
theorem run_answers_served (inputs : List HostInput) (s : State) (hp : s.pending = inputs)
    (hd : s.params.oobPosPolicy = .draw) :
    ∃ t, Host.Core.run Sys2Proof.core inputs.length s = .next t ∧ t.pending = [] ∧
      AnsweredBetween (served s.resetAsserted inputs) s t := by
  induction inputs generalizing s with
  | nil => exact ⟨s, run_zero, hp, by simpa [served] using AnsweredBetween.of_trace_eq rfl⟩
  | cons x rest ih =>
    obtain ⟨t, cs, hstep, hpt, hparams, hans, hserved⟩ := step_answers_input hp hd
    obtain ⟨u, hrun, hpu, hans'⟩ := ih t hpt (by rw [hparams, hd])
    exact ⟨u, (run_succ hstep).trans hrun, hpu, hserved ▸ hans.trans hans'⟩

end ResetAndCompletion

/-! ## The obligations -/

/-- Settles O25: of the two ways a step can end, `draw` leaves the next state. -/
theorem stepNeverStops : Obligations.StepNeverStops := by
  intro s
  obtain ⟨t, ht⟩ | ⟨hfault, hpolicy, hcommand⟩ := step_next_or_misuse s
  · simp [ht]
  · refine ⟨fun hd => by simp [hpolicy] at hd, fun r h => by simp [hfault] at h, fun f h => ?_⟩
    cases hfault.symm.trans h
    exact ⟨rfl, hpolicy, hcommand⟩

/-- Settles O28, by induction on the waiting inputs. -/
theorem everyCommandAnswered : Obligations.EveryCommandAnswered := by
  intro s hd
  obtain ⟨t, hrun, hpt, rs, htrace, hall⟩ := run_answers_served s.pending s rfl hd
  exact ⟨t, rs, hrun, hpt, htrace, hall⟩

/-- Settles O54: the step that asserts reset, then the commands taken under it. -/
theorem cutCommandsGetNoResponse : Obligations.CutCommandsGetNoResponse := by
  intro s cs hp
  cases cs with
  | nil => exact ⟨_, run_succ (step_cutByReset_nil hp), rfl, rfl, rfl, rfl, rfl, rfl⟩
  | cons c cs =>
    obtain ⟨p, hrun⟩ := run_commands_inReset cs (s.cutOff c (cs.map .command)) rfl rfl
    rw [List.length_cons, max_eq_right (Nat.le_add_left 1 cs.length)]
    exact ⟨_, (run_succ (step_cutByReset_command hp)).trans hrun, rfl, rfl, rfl, rfl, rfl, rfl⟩

/-- Settles O3: each clause is the step on that input. -/
theorem resetSilences : Obligations.ResetSilences := fun _ _ =>
  ⟨step_assertReset, step_releaseReset, fun _ => step_inReset, fun _ => step_cutOff⟩

end Sys2Proof.Machine
